-- ==== Sys2Proof/Config.lean ====
section
/-! DEFINITION. The build parameters of the hardware (00_scope.md R5 to R7): `W`, `NW` and `NM`, each with the
range the spec admits. They are fixed at build time (10_state.md R43) and are the argument every rule of the
model takes. `LAT` (R9) and `IFACE` (30_encoding.md R111) are parameters no rule depends on; they have no
counterpart here (notes/assumptions/8.md). -/

namespace Sys2Proof

/-- The five storage word widths the core admits (R5). -/
inductive Width where
  | w8 | w16 | w32 | w64 | w128
  deriving DecidableEq, Repr

/-- The width in bits. -/
def Width.bits : Width → Nat
  | .w8 => 8
  | .w16 => 16
  | .w32 => 32
  | .w64 => 64
  | .w128 => 128

/-- One build of the core. The two proof fields are the ranges of R6 and R7, so a build outside them cannot be
written down (notes/assumptions/7.md). -/
structure Params where
  /-- `W`, as one of the five admitted widths (R5). -/
  width : Width
  /-- `NW`, the number of physical storage words in each mask register (R6). -/
  nw : Nat
  /-- `NM`, the number of mask registers (R7). -/
  nm : Nat
  /-- The range of `NW` (R6). -/
  nw_range : 1 ≤ nw ∧ nw ≤ 2 ^ 32 - 1
  /-- The range of `NM` (R7). -/
  nm_range : 2 ≤ nm ∧ nm ≤ 16
  deriving DecidableEq, Repr

/-- `W` in bits (R5). -/
abbrev Params.W (p : Params) : Nat := p.width.bits

/-- `L_MAX = NW*W - 1`, the maximum logical length (R6). -/
def Params.lmax (p : Params) : Nat := p.nw * p.W - 1

/-- The reference configuration `W = 8, NW = 4, NM = 4` of R16 (92_eei_decisions.md D29). -/
def Params.reference : Params where
  width := .w8
  nw := 4
  nm := 4
  nw_range := by decide
  nm_range := by decide

/-- The identification string `NBM-CMD1-W<W>-N<NW>-R<NM>` of R2. -/
def Params.ident (p : Params) : String :=
  "NBM-CMD1-W" ++ toString p.W ++ "-N" ++ toString p.nw ++ "-R" ++ toString p.nm

end Sys2Proof
end

