-- ==== Sys2Proof/Word.lean ====
section
/-! DEFINITION. The storage word of `W` bits, its two shifts, and the 4-bit register field of a command
(00_scope.md R10 to R12). The constants of R10 are written in Lean's own notation: `ZERO` is `0#W`, `ONE` is
`1#W` and `ALL1` is `BitVec.allOnes W`; `&`, `|`, `^`, `~` are `&&&`, `|||`, `^^^`, `~~~`. -/

namespace Sys2Proof

/-- A storage word of `W` bits, bit 0 least significant (R10). -/
abbrev Word (W : Nat) := BitVec W

/-- `shl_W(x, s)` of R12: total, `ZERO` for `s >= W`. -/
def shlW {W : Nat} (x : Word W) (s : Nat) : Word W :=
  if W ≤ s then 0#W else x <<< s

/-- `shr_W(x, s)` of R12: total, `ZERO` for `s >= W`. -/
def shrW {W : Nat} (x : Word W) (s : Nat) : Word W :=
  if W ≤ s then 0#W else x >>> s

/-- A register field of the command word: an unsigned 4-bit number (R92). -/
abbrev RegField := BitVec 4

end Sys2Proof
end

