-- ==== Sys2Proof/Machine/State.lean ====
section
/-! DEFINITION. What the machine holds, why a step can stop, and the state after reset. The architectural state
is the tuple `(M[0..NM-1], STATUS, RES, RWD)` of 10_state.md R44. Beside it stand the model's own fields: the
build parameters (fixed, R43), the command on the input ports, the host's list and the position in it
(R39, 30_encoding.md R110). -/

namespace Sys2Proof.Machine

/-- A mask register: a logical length and `NW` physical words of `W` bits (R30). Word 0 holds the lowest logical
indices (R32). The bound `len <= L_MAX` of R31 and the padding rule R35 are invariants (Safety.lean). -/
structure MaskReg (W NW : Nat) where
  /-- `M[r].len`, the logical length in bits, a natural number (R11, R31). -/
  len : Nat
  /-- `M[r].w[0 .. NW-1]`, the physical words (R30). -/
  w : Vector (Word W) NW
  deriving DecidableEq, Repr

/-- The value `zeros(0)`, which every mask register holds after reset (R45). -/
def MaskReg.empty (W NW : Nat) : MaskReg W NW := ⟨0, Vector.replicate NW 0#W⟩

/-- What the host presents with one command (30_encoding.md R90, R111): the input ports CMD, OPND and WDATA. -/
structure Transaction (W : Nat) where
  /-- Port `CMD`: the command word. -/
  cmd : BitVec 32
  /-- Port `OPND`: the scalar operand. -/
  opnd : BitVec 64
  /-- Port `WDATA`: the data word, read only by WRW. -/
  wdata : Word W
  deriving DecidableEq, Repr

/-- One thing the host does to the unit (30_encoding.md R112, 70_reset_and_hazards.md R300, R313). -/
inductive HostEvent (W : Nat) where
  /-- Issue a command and wait for its response (R110). -/
  | issue (t : Transaction W)
  /-- Assert and release `RST` with no command in progress (R300). -/
  | reset
  /-- Issue `t` and assert `RST` before its response: the command is abandoned and has no effect (R300). -/
  | resetDuring (t : Transaction W)
  /-- Issue `u` while `t` is outstanding, which breaks the host's duty: no defined effect (R313). -/
  | overlap (t u : Transaction W)
  deriving DecidableEq, Repr

/-- The state of the unit and of the host's list. -/
structure State where
  /-- The build parameters. No step changes them (R43, notes/assumptions/1.md). -/
  cfg : Params
  /-- `M[0 .. NM-1]`, the mask register file (R30). -/
  m : Vector (MaskReg cfg.W cfg.nw) cfg.nm
  /-- `STATUS`, the outcome code of the most recent command (R38). -/
  status : BitVec 4
  /-- `RES`, the scalar result register (R40). -/
  res : BitVec 64
  /-- `RWD`, the word result register (R41). -/
  rwd : Word cfg.W
  /-- The input ports: the command the unit is executing, or executed last (R111, notes/assumptions/4.md). -/
  port : Transaction cfg.W
  /-- The host's list of events (R39, notes/assumptions/3.md). -/
  script : List (HostEvent cfg.W)
  /-- The index in `script` of what the host does next (R39). -/
  pos : Nat
  deriving DecidableEq, Repr

/-- No state and no command of this unit faults: the unit has no traps, and an error is a `STATUS` code after
which the next command runs normally (60_exceptions.md R270, R278). So there is no reason to fault. -/
inductive Fault where
  deriving DecidableEq, Repr

/-- Why a step is given no meaning. -/
inductive Refusal where
  /-- Raised only by `exec`'s arm of a command that has no meaning yet; safe, since nothing is claimed there.
  No arm of this model raises it. -/
  | notModelled (mnemonic : String)
  /-- Raised by `step` when the host issues a command while another is outstanding, which "has no defined effect"
  (70_reset_and_hazards.md R313; 93_implementation_defined.md row 15 asks a model to refuse the run). Safe: no
  property of such a run can be proved. No command of the opcode table raises it. -/
  | overlappingIssue
  deriving DecidableEq, Repr

/-- The state right after reset of the build `cfg` (R45), with nothing on the ports and an empty host list. -/
abbrev State.resetOf (cfg : Params) : State where
  cfg := cfg
  m := Vector.replicate cfg.nm (MaskReg.empty cfg.W cfg.nw)
  status := 0#4
  res := 0#64
  rwd := 0#cfg.W
  port := ⟨0#32, 0#64, 0#cfg.W⟩
  script := []
  pos := 0

/-- The machine right after reset, on the reference build `W = 8, NW = 4, NM = 4` (R16, R45;
notes/assumptions/2.md). -/
def State.reset : State := State.resetOf Params.reference

end Sys2Proof.Machine
end

