-- ==== Sys2Proof/Machine/Flags.lean ====
section
/-! DEFINITION. The status codes of `STATUS` (60_exceptions.md R271). The core has no condition flags, predicates
or sticky error bits (10_state.md R42), so the outcome code is all that stands here. -/

namespace Sys2Proof.Machine

/-- The named status codes of R271. Codes 5 to 15 are reserved and never raised. -/
inductive Code where
  /-- 0: every successful command. -/
  | ok
  /-- 1: SET, GET, RDW, WRW with an index out of range (R272). -/
  | indexOutOfBounds
  /-- 2: ZEROS, ONES with `size > L_MAX` (R274). -/
  | capacityExceeded
  /-- 3: an illegal command word (R273). -/
  | illegalCommand
  /-- 4: reserved for the host adapter's error; the core never raises it (R275). -/
  | deserializationFailed
  deriving DecidableEq, Repr

/-- `code(E)` of 00_scope.md R14: the value written to `STATUS[3:0]` (R271). -/
def Code.bits : Code → BitVec 4
  | .ok => 0#4
  | .indexOutOfBounds => 1#4
  | .capacityExceeded => 2#4
  | .illegalCommand => 3#4
  | .deserializationFailed => 4#4

end Sys2Proof.Machine
end

