-- ==== Sys2Proof/Machine/Ops.lean ====
section
/-! DEFINITION. The shared operations: word primitives (00_scope.md R12), the index decoder, the implicit-zero
lookup and the tail mask (20_memory.md R61 to R65), building register values, access to the register file, and
the two ways a command ends (60_exceptions.md R270). The unit has no byte-addressed memory (R60): its only storage
is the mask register file. An error is `raise`, the unit's one exception operation; there is no trap entry to
model and no return from one (R278, R279). -/

namespace Sys2Proof.Machine

/-! ## Word primitives -/

/-- `popcount_W(x)`: the number of set bits (R12). -/
def popcount {W : Nat} (x : Word W) : Nat := (List.range W).countP fun b => x.getLsbD b

/-- `tz_W(x)`: the index of the lowest set bit, `W` when `x = ZERO` (R12). -/
def tz {W : Nat} (x : Word W) : Nat := ((List.range W).find? fun b => x.getLsbD b).getD W

/-! ## Index decoding and the tail mask -/

/-- `widx(i) = i / W`, the word index of a logical index (R61). -/
def widx (W i : Nat) : Nat := i / W

/-- `off(i) = i % W`, the in-word offset of a logical index (R61). -/
def off (W i : Nat) : Nat := i % W

/-- `nwords(L) = L / W + 1`, the number of allocated words (10_state.md R34). -/
def nwords (W L : Nat) : Nat := L / W + 1

/-- `tailmask(L) = (shl_W(ONE, L % W) - ONE) mod 2^W` (R64). -/
def tailmask (W L : Nat) : Word W := shlW 1#W (L % W) - 1#W

/-! ## Register values -/

/-- The vector whose entry `k` is `f k`. -/
def tabulate {α : Type} (n : Nat) (f : Nat → α) : Vector α n :=
  ⟨((List.range n).map f).toArray, by simp⟩

namespace MaskReg

variable {W NW : Nat}

/-- `X.w[k]`, the physical word `k`. Past the last physical word it answers `ZERO`; under the invariants no
command reads there, but for the implicit-zero lookups (notes/assumptions/6.md). -/
def phys (X : MaskReg W NW) (k : Nat) : Word W := X.w[k]?.getD 0#W

/-- `word(X, k)`: the physical word if `k` is allocated, else the implicit `ZERO` (R63). -/
def word (X : MaskReg W NW) (k : Nat) : Word W :=
  if k < nwords W X.len then X.phys k else 0#W

/-- `X` with `X.w[k] <- x`. -/
def setWord (X : MaskReg W NW) (k : Nat) (x : Word W) : MaskReg W NW :=
  { X with w := X.w.setIfInBounds k x }

/-- The value of length `L` whose physical word `k` is `f k`, for every `k < NW`. -/
def build (W NW L : Nat) (f : Nat → Word W) : MaskReg W NW := ⟨L, tabulate NW f⟩

/-- The value of length `L` whose allocated word `k` is `f k` and whose words above are `ZERO`: the lane enable
of 44_boolean.md. -/
def lanes (W NW L : Nat) (f : Nat → Word W) : MaskReg W NW :=
  build W NW L fun k => if k < nwords W L then f k else 0#W

/-- `tailfix(T)`: AND the tail word, word `T.len / W`, with the tail mask (R65). -/
def tailfix (T : MaskReg W NW) : MaskReg W NW :=
  T.setWord (T.len / W) (T.phys (T.len / W) &&& tailmask W T.len)

end MaskReg

/-! ## The register file -/

namespace State

/-- A mask register of this build. -/
abbrev Reg (s : State) := MaskReg s.cfg.W s.cfg.nw

/-- `M[r]` (R13). For `r >= NM`, which no legal command names (30_encoding.md R97), it answers `zeros(0)`. -/
def reg (s : State) (r : RegField) : s.Reg :=
  s.m[r.toNat]?.getD (MaskReg.empty s.cfg.W s.cfg.nw)

/-- `M[r] <- T`: replaces the whole register (R13). -/
def setReg (s : State) (r : RegField) (T : s.Reg) : State :=
  { s with m := s.m.setIfInBounds r.toNat T }

/-- `RES <- v` (R13). -/
def setRes (s : State) (v : BitVec 64) : State := { s with res := v }

/-- `RWD <- v` (R13). -/
def setRwd (s : State) (v : Word s.cfg.W) : State := { s with rwd := v }

/-! ## How a command ends -/

/-- `STATUS <- c`. -/
def setStatus (s : State) (c : Code) : State := { s with status := c.bits }

/-- `STATUS <- OK`: the end of a successful command (60_exceptions.md R270). -/
def ok (s : State) : State := s.setStatus .ok

/-- `raise E`: `STATUS <- code(E)`, the command ends, and no other state changes (00_scope.md R14, R277). -/
def raise (s : State) (e : Code) : State := s.setStatus e

end State

end Sys2Proof.Machine
end

