-- ==== Sys2Proof/Machine/Operands.lean ====
section
/-! DEFINITION. The operand forms (30_encoding.md R94 to R97): the scalar operand, the data operand, and the check
that the register fields a command uses name registers. -/

namespace Sys2Proof.Machine.State

/-- `OPND` as the unsigned number every command reads it as, all 64 bits (R94, 00_scope.md R11). -/
def opnd (s : State) : Nat := s.port.opnd.toNat

/-- `WDATA` (R95). -/
def wdata (s : State) : Word s.cfg.W := s.port.wdata

/-- A command whose register fields are `rs` and whose own effect leads to `t`. A field that is `>= NM` makes the
command illegal before any operand check (R97 (d), 60_exceptions.md R276). The decoder rejects such a word
already, so `step` meets this case never; it gives `exec` the same answer when it is applied directly
(notes/assumptions/5.md). -/
def withRegs (s : State) (rs : List RegField) (t : State) : Host.Outcome State Fault Refusal :=
  if ∀ r ∈ rs, r.toNat < s.cfg.nm then .next t else .next (s.raise .illegalCommand)

end Sys2Proof.Machine.State
end

