-- ==== Sys2Proof/Machine/Aggregate.lean ====
section
/-! DEFINITION. Aggregate queries: LEN, NWD, CNT, TZC, CFG (43_aggregate.md R160 to R164). `zext_64(v)` of a
natural number is `BitVec.ofNat 64 v`; under the invariants every value fits (00_scope.md R8). -/

namespace Sys2Proof.Machine

/-- The sum of the population counts of the allocated words (R162). -/
def MaskReg.countOnes {W NW : Nat} (X : MaskReg W NW) : Nat :=
  ((List.range (nwords W X.len)).map fun k => popcount (X.phys k)).sum

/-- The scan of R163 over the word indices `ks`, with `acc` zeros counted so far; `none` when every word is
exhausted. -/
def MaskReg.scanZeros {W NW : Nat} (X : MaskReg W NW) : List Nat → Nat → Option Nat
  | [], _ => none
  | k :: ks, acc =>
    if tz (X.phys k) < W then some (acc + tz (X.phys k)) else X.scanZeros ks (acc + W)

/-- The index of the lowest set bit, or `len` when every word is exhausted (R163). -/
def MaskReg.trailingZeros {W NW : Nat} (X : MaskReg W NW) : Nat :=
  (X.scanZeros (List.range (nwords W X.len)) 0).getD X.len

/-- The configuration readout of R164. -/
def configWord (p : Params) : BitVec 64 :=
  BitVec.ofNat 64 p.W ||| (BitVec.ofNat 64 p.nw <<< 16) ||| (BitVec.ofNat 64 p.nm <<< 48)

/-- LEN (R160). -/
def execLen (a : RegField) (s : State) : Host.Outcome State Fault Refusal :=
  s.withRegs [a] (s.setRes (BitVec.ofNat 64 (s.reg a).len)).ok

/-- NWD (R161). -/
def execNwd (a : RegField) (s : State) : Host.Outcome State Fault Refusal :=
  s.withRegs [a] (s.setRes (BitVec.ofNat 64 (nwords s.cfg.W (s.reg a).len))).ok

/-- CNT (R162). -/
def execCnt (a : RegField) (s : State) : Host.Outcome State Fault Refusal :=
  s.withRegs [a] (s.setRes (BitVec.ofNat 64 (s.reg a).countOnes)).ok

/-- TZC (R163). -/
def execTzc (a : RegField) (s : State) : Host.Outcome State Fault Refusal :=
  s.withRegs [a] (s.setRes (BitVec.ofNat 64 (s.reg a).trailingZeros)).ok

/-- CFG (R164). -/
def execCfg (s : State) : Host.Outcome State Fault Refusal :=
  s.withRegs [] (s.setRes (configWord s.cfg)).ok

end Sys2Proof.Machine
end

