-- ==== Sys2Proof/Machine/BitAccess.lean ====
section
/-! DEFINITION. Single-bit access: SET, GET (42_bit_access.md R140, R141). -/

namespace Sys2Proof.Machine

/-- `X` with logical bit `i` set or cleared (R140), through the index decoder of 20_memory.md R61. -/
def MaskReg.writeBit {W NW : Nat} (X : MaskReg W NW) (i : Nat) (v : Bool) : MaskReg W NW :=
  let q := widx W i
  let sel := shlW 1#W (off W i)
  X.setWord q (if v then X.phys q ||| sel else X.phys q &&& ~~~sel)

/-- The bit test `(word >> offset) & ONE == ONE` (R141). -/
def MaskReg.readBit {W NW : Nat} (X : MaskReg W NW) (i : Nat) : Bool :=
  (shrW (X.phys (widx W i)) (off W i) &&& 1#W) == 1#W

/-- SET (R140). -/
def execSet (d : RegField) (v : Bool) (s : State) : Host.Outcome State Fault Refusal :=
  s.withRegs [d] <|
    if s.opnd ≥ (s.reg d).len then s.raise .indexOutOfBounds
    else (s.setReg d ((s.reg d).writeBit s.opnd v)).ok

/-- GET (R141). -/
def execGet (a : RegField) (s : State) : Host.Outcome State Fault Refusal :=
  s.withRegs [a] <|
    if s.opnd ≥ (s.reg a).len then s.raise .indexOutOfBounds
    else (s.setRes (if (s.reg a).readBit s.opnd then 1#64 else 0#64)).ok

end Sys2Proof.Machine
end

