-- ==== Sys2Proof/Machine/Boolean.lean ====
section
/-! DEFINITION. The boolean operator tree: AND, OR, XOR, NOT, ANDA, ORA, XORA (44_boolean.md R180 to R186). -/

namespace Sys2Proof.Machine

namespace MaskReg

variable {W NW : Nat}

/-- The word lanes of a binary operator at result length `L`: a missing word of either side reads as the implicit
`ZERO` (20_memory.md R63), and lanes above the allocated words are `ZERO`. -/
def combine (op : Word W → Word W → Word W) (L : Nat) (A B : MaskReg W NW) : MaskReg W NW :=
  lanes W NW L fun k => op (A.word k) (B.word k)

/-- Every allocated word inverted, then the tail correction at the value's own length (R183). -/
def complement (A : MaskReg W NW) : MaskReg W NW :=
  (lanes W NW A.len fun k => ~~~(A.phys k)).tailfix

end MaskReg

/-- AND (R180): the result length is the maximum of the two. -/
def execAnd (d a b : RegField) (s : State) : Host.Outcome State Fault Refusal :=
  s.withRegs [d, a, b]
    (s.setReg d (MaskReg.combine (· &&& ·) (max (s.reg a).len (s.reg b).len) (s.reg a) (s.reg b))).ok

/-- OR (R181). -/
def execOr (d a b : RegField) (s : State) : Host.Outcome State Fault Refusal :=
  s.withRegs [d, a, b]
    (s.setReg d (MaskReg.combine (· ||| ·) (max (s.reg a).len (s.reg b).len) (s.reg a) (s.reg b))).ok

/-- XOR (R182). -/
def execXor (d a b : RegField) (s : State) : Host.Outcome State Fault Refusal :=
  s.withRegs [d, a, b]
    (s.setReg d (MaskReg.combine (· ^^^ ·) (max (s.reg a).len (s.reg b).len) (s.reg a) (s.reg b))).ok

/-- NOT (R183). -/
def execNot (d a : RegField) (s : State) : Host.Outcome State Fault Refusal :=
  s.withRegs [d, a] (s.setReg d (s.reg a).complement).ok

/-- ANDA (R184): keeps the length of `M[d]`. -/
def execAnda (d b : RegField) (s : State) : Host.Outcome State Fault Refusal :=
  s.withRegs [d, b]
    (s.setReg d (MaskReg.combine (· &&& ·) (s.reg d).len (s.reg d) (s.reg b))).ok

/-- ORA (R185): grows `M[d]` to the longer length. -/
def execOra (d b : RegField) (s : State) : Host.Outcome State Fault Refusal :=
  s.withRegs [d, b]
    (s.setReg d (MaskReg.combine (· ||| ·) (max (s.reg d).len (s.reg b).len) (s.reg d) (s.reg b))).ok

/-- XORA (R186): grows `M[d]` to the longer length. -/
def execXora (d b : RegField) (s : State) : Host.Outcome State Fault Refusal :=
  s.withRegs [d, b]
    (s.setReg d (MaskReg.combine (· ^^^ ·) (max (s.reg d).len (s.reg b).len) (s.reg d) (s.reg b))).ok

end Sys2Proof.Machine
end

