-- ==== Sys2Proof/Machine/Construction.lean ====
section
/-! DEFINITION. Construction and fill: ZEROS, ONES, SETALL, MOV (41_construction.md R120 to R123). -/

namespace Sys2Proof.Machine

/-- `zeros(L)`: every word `ZERO` (R120). -/
def MaskReg.zeros (W NW L : Nat) : MaskReg W NW := MaskReg.build W NW L fun _ => 0#W

/-- Every allocated word uniformly `v`, then the tail correction (R121, R122). -/
def MaskReg.fill (W NW L : Nat) (v : Bool) : MaskReg W NW :=
  (MaskReg.build W NW L fun k => if v && decide (k < nwords W L) then BitVec.allOnes W else 0#W).tailfix

/-- ZEROS (R120). -/
def execZeros (d : RegField) (s : State) : Host.Outcome State Fault Refusal :=
  s.withRegs [d] <|
    if s.opnd > s.cfg.lmax then s.raise .capacityExceeded
    else (s.setReg d (MaskReg.zeros _ _ s.opnd)).ok

/-- ONES (R121). -/
def execOnes (d : RegField) (s : State) : Host.Outcome State Fault Refusal :=
  s.withRegs [d] <|
    if s.opnd > s.cfg.lmax then s.raise .capacityExceeded
    else (s.setReg d (MaskReg.fill _ _ s.opnd true)).ok

/-- SETALL (R122). -/
def execSetall (d : RegField) (v : Bool) (s : State) : Host.Outcome State Fault Refusal :=
  s.withRegs [d] (s.setReg d (MaskReg.fill _ _ (s.reg d).len v)).ok

/-- MOV (R123). -/
def execMov (d a : RegField) (s : State) : Host.Outcome State Fault Refusal :=
  s.withRegs [d, a] (s.setReg d (s.reg a)).ok

end Sys2Proof.Machine
end

