-- ==== Sys2Proof/Machine/Equality.lean ====
section
/-! DEFINITION. Equality: EQ (46_equality.md R240). -/

namespace Sys2Proof.Machine

/-- The comparison of R240: the lengths, then the allocated words. -/
def MaskReg.sameMask {W NW : Nat} (A B : MaskReg W NW) : Bool :=
  A.len == B.len && (List.range (nwords W A.len)).all fun k => A.phys k == B.phys k

/-- EQ (R240). -/
def execEq (a b : RegField) (s : State) : Host.Outcome State Fault Refusal :=
  s.withRegs [a, b] (s.setRes (if (s.reg a).sameMask (s.reg b) then 1#64 else 0#64)).ok

end Sys2Proof.Machine
end

