-- ==== Sys2Proof/Machine/Shift.lean ====
section
/-! DEFINITION. The multi-word barrel shifter: SHR, SHL, SHRA, SHLA (45_shift.md R210 to R213). The amount is the
whole 64-bit `OPND`. -/

namespace Sys2Proof.Machine

namespace MaskReg

variable {W NW : Nat}

/-- The result of SHR (R210): word step `q = n / W`, bit step `s = n % W`, cross-word term guarded at `s = 0`. -/
def shiftRight (A : MaskReg W NW) (n : Nat) : MaskReg W NW :=
  let q := n / W
  let s := n % W
  build W NW A.len fun k =>
    let lo := A.word (k + q)
    let hi := if s = 0 then 0#W else shlW (A.word (k + q + 1)) (W - s)
    shrW lo s ||| hi

/-- The result of SHL (R211), with the tail correction. -/
def shiftLeft (A : MaskReg W NW) (n : Nat) : MaskReg W NW :=
  let q := n / W
  let s := n % W
  (build W NW A.len fun k =>
    if k ≥ nwords W A.len then 0#W
    else
      let lo := if k ≥ q then A.word (k - q) else 0#W
      let hi := if s = 0 ∨ k < q + 1 then 0#W else shrW (A.word (k - q - 1)) (W - s)
      shlW lo s ||| hi).tailfix

end MaskReg

/-- SHR (R210). -/
def execShr (d a : RegField) (s : State) : Host.Outcome State Fault Refusal :=
  s.withRegs [d, a] (s.setReg d ((s.reg a).shiftRight s.opnd)).ok

/-- SHL (R211). -/
def execShl (d a : RegField) (s : State) : Host.Outcome State Fault Refusal :=
  s.withRegs [d, a] (s.setReg d ((s.reg a).shiftLeft s.opnd)).ok

/-- SHRA (R212): R210 with `a = d`. -/
def execShra (d : RegField) (s : State) : Host.Outcome State Fault Refusal :=
  s.withRegs [d] (s.setReg d ((s.reg d).shiftRight s.opnd)).ok

/-- SHLA (R213): R211 with `a = d`. -/
def execShla (d : RegField) (s : State) : Host.Outcome State Fault Refusal :=
  s.withRegs [d] (s.setReg d ((s.reg d).shiftLeft s.opnd)).ok

end Sys2Proof.Machine
end

