-- ==== Sys2Proof/Machine/WordPort.lean ====
section
/-! DEFINITION. The word port: RDW, WRW (47_word_port.md R250, R251). -/

namespace Sys2Proof.Machine

/-- `X` with `data` written to its allocated word `k`, the tail word masked (R251). -/
def MaskReg.storeWord {W NW : Nat} (X : MaskReg W NW) (k : Nat) (data : Word W) : MaskReg W NW :=
  X.setWord k (if k = X.len / W then data &&& tailmask W X.len else data)

/-- RDW (R250). -/
def execRdw (a : RegField) (s : State) : Host.Outcome State Fault Refusal :=
  s.withRegs [a] <|
    if s.opnd ≥ nwords s.cfg.W (s.reg a).len then s.raise .indexOutOfBounds
    else (s.setRwd ((s.reg a).phys s.opnd)).ok

/-- WRW (R251). -/
def execWrw (d : RegField) (s : State) : Host.Outcome State Fault Refusal :=
  s.withRegs [d] <|
    if s.opnd ≥ nwords s.cfg.W (s.reg d).len then s.raise .indexOutOfBounds
    else (s.setReg d ((s.reg d).storeWord s.opnd s.wdata)).ok

end Sys2Proof.Machine
end

