-- ==== Sys2Proof/Syntax.lean ====
section
/-! DEFINITION. The 25 commands of the opcode map (30_encoding.md R98), one constructor per row of
spec/opcode_table.json, and the formats of R93. A constructor holds what the command WORD spells: the register
fields its format uses and `V`. The scalar operand `OPND` and the data operand `WDATA` travel beside the word
(R90), are no part of it, and are read from the input ports when the command runs. -/

namespace Sys2Proof

/-- A legal-shaped command word. `d`, `a`, `b` are the RD, RA and RB fields, `v` is V (R92). -/
inductive Instr where
  /-- ZEROS Md, size (R120). -/
  | zeros (d : RegField)
  /-- ONES Md, size (R121). -/
  | ones (d : RegField)
  /-- SETALL Md, v (R122). -/
  | setall (d : RegField) (v : Bool)
  /-- SET Md, i, v (R140). -/
  | set (d : RegField) (v : Bool)
  /-- GET Ma, i (R141). -/
  | get (a : RegField)
  /-- LEN Ma (R160). -/
  | len (a : RegField)
  /-- NWD Ma (R161). -/
  | nwd (a : RegField)
  /-- CNT Ma (R162). -/
  | cnt (a : RegField)
  /-- TZC Ma (R163). -/
  | tzc (a : RegField)
  /-- EQ Ma, Mb (R240). -/
  | eq (a b : RegField)
  /-- MOV Md, Ma (R123). -/
  | mov (d a : RegField)
  /-- CFG (R164). -/
  | cfg
  /-- AND Md, Ma, Mb (R180). -/
  | and (d a b : RegField)
  /-- OR Md, Ma, Mb (R181). -/
  | or (d a b : RegField)
  /-- XOR Md, Ma, Mb (R182). -/
  | xor (d a b : RegField)
  /-- NOT Md, Ma (R183). -/
  | not (d a : RegField)
  /-- ANDA Md, Mb (R184). -/
  | anda (d b : RegField)
  /-- ORA Md, Mb (R185). -/
  | ora (d b : RegField)
  /-- XORA Md, Mb (R186). -/
  | xora (d b : RegField)
  /-- SHR Md, Ma, n (R210). -/
  | shr (d a : RegField)
  /-- SHL Md, Ma, n (R211). -/
  | shl (d a : RegField)
  /-- SHRA Md, n (R212). -/
  | shra (d : RegField)
  /-- SHLA Md, n (R213). -/
  | shla (d : RegField)
  /-- RDW Ma, k (R250). -/
  | rdw (a : RegField)
  /-- WRW Md, k, data (R251). -/
  | wrw (d : RegField)
  deriving DecidableEq, Repr

/-- The eight formats of R93; the letters name the fields a format uses. -/
inductive Format where
  | N | D | DV | A | AB | DA | DB | DAB
  deriving DecidableEq, Repr

namespace Format

/-- Does the format use RD (R93)? -/
def usesRD : Format → Bool
  | .D | .DV | .DA | .DB | .DAB => true
  | .N | .A | .AB => false

/-- Does the format use RA (R93)? -/
def usesRA : Format → Bool
  | .A | .AB | .DA | .DAB => true
  | .N | .D | .DV | .DB => false

/-- Does the format use RB (R93)? -/
def usesRB : Format → Bool
  | .AB | .DB | .DAB => true
  | .N | .D | .DV | .A | .DA => false

/-- Does the format use V (R93)? -/
def usesV : Format → Bool
  | .DV => true
  | .N | .D | .A | .AB | .DA | .DB | .DAB => false

/-- The mask of R93: the bits of a command word that must match the opcode value. -/
def mask : Format → BitVec 32
  | .N => 0xFFFFFFFF#32
  | .D => 0xFFFFF0FF#32
  | .DV => 0xFFEFF0FF#32
  | .A => 0xFFFF0FFF#32
  | .AB => 0xFFF00FFF#32
  | .DA => 0xFFFF00FF#32
  | .DB => 0xFFF0F0FF#32
  | .DAB => 0xFFF000FF#32

end Format

end Sys2Proof
end

