-- ==== Sys2Proof/Machine/Dispatch.lean ====
section
/-! DEFINITION. One arm per command of the opcode map (30_encoding.md R98), each one call of its meaning. -/

namespace Sys2Proof.Machine

def exec (i : Instr) (s : State) : Host.Outcome State Fault Refusal :=
  match i with
  | .zeros d => Sys2Proof.Machine.execZeros d s
  | .ones d => Sys2Proof.Machine.execOnes d s
  | .setall d v => Sys2Proof.Machine.execSetall d v s
  | .mov d a => Sys2Proof.Machine.execMov d a s
  | .set d v => Sys2Proof.Machine.execSet d v s
  | .get a => Sys2Proof.Machine.execGet a s
  | .len a => Sys2Proof.Machine.execLen a s
  | .nwd a => Sys2Proof.Machine.execNwd a s
  | .cnt a => Sys2Proof.Machine.execCnt a s
  | .tzc a => Sys2Proof.Machine.execTzc a s
  | .cfg => Sys2Proof.Machine.execCfg s
  | .and d a b => Sys2Proof.Machine.execAnd d a b s
  | .or d a b => Sys2Proof.Machine.execOr d a b s
  | .xor d a b => Sys2Proof.Machine.execXor d a b s
  | .not d a => Sys2Proof.Machine.execNot d a s
  | .anda d b => Sys2Proof.Machine.execAnda d b s
  | .ora d b => Sys2Proof.Machine.execOra d b s
  | .xora d b => Sys2Proof.Machine.execXora d b s
  | .shr d a => Sys2Proof.Machine.execShr d a s
  | .shl d a => Sys2Proof.Machine.execShl d a s
  | .shra d => Sys2Proof.Machine.execShra d s
  | .shla d => Sys2Proof.Machine.execShla d s
  | .eq a b => Sys2Proof.Machine.execEq a b s
  | .rdw a => Sys2Proof.Machine.execRdw a s
  | .wrw d => Sys2Proof.Machine.execWrw d s

end Sys2Proof.Machine
end

