-- ==== Sys2Proof/WellFormed.lean ====
section
/-! DEFINITION. Which commands are well formed on a core with `nm` mask registers: every register field the
command uses names a register (30_encoding.md R97 (d)). The other legality conditions, (a) to (c), are conditions
on words and stand in Decode.lean: no term of `Instr` can break them. -/

namespace Sys2Proof

/-- The register fields a command uses (R93, R96), in the order RD, RA, RB. -/
def Instr.regs : Instr → List RegField
  | .zeros d => [d]
  | .ones d => [d]
  | .setall d _ => [d]
  | .set d _ => [d]
  | .get a => [a]
  | .len a => [a]
  | .nwd a => [a]
  | .cnt a => [a]
  | .tzc a => [a]
  | .eq a b => [a, b]
  | .mov d a => [d, a]
  | .cfg => []
  | .and d a b => [d, a, b]
  | .or d a b => [d, a, b]
  | .xor d a b => [d, a, b]
  | .not d a => [d, a]
  | .anda d b => [d, b]
  | .ora d b => [d, b]
  | .xora d b => [d, b]
  | .shr d a => [d, a]
  | .shl d a => [d, a]
  | .shra d => [d]
  | .shla d => [d]
  | .rdw a => [a]
  | .wrw d => [d]

/-- Every register field names one of the `nm` mask registers (R97 (d)). -/
abbrev Instr.WellFormed (nm : Nat) (i : Instr) : Prop :=
  ∀ r ∈ i.regs, r.toNat < nm

end Sys2Proof
end

