-- ==== Sys2Proof/Decode.lean ====
section
/-! DEFINITION. The command decoder, total over all 2^32 words, and the encoder (30_encoding.md R91 to R99). The
decoder rejects by name: `Illegal` says which of R97 (a) to (d) a word breaks. The spec gives all four one status
code (60_exceptions.md R276), so which name comes first is not observable. -/

namespace Sys2Proof

/-- Why a command word is illegal: the four conditions of R97. -/
inductive Illegal where
  /-- (a) `OP` is none of the 25 opcode values. -/
  | opcode
  /-- (b) `RSV != 0`. -/
  | reservedBits
  /-- (c) a field the opcode's format does not use is nonzero. -/
  | unusedField
  /-- (d) a register field the format uses is `>= NM`. -/
  | registerIndex
  deriving DecidableEq, Repr

namespace Cmd

/-- `OP = CMD[7:0]` (R92). -/
def op (w : BitVec 32) : BitVec 8 := w.extractLsb' 0 8
/-- `RD = CMD[11:8]` (R92). -/
def rd (w : BitVec 32) : RegField := w.extractLsb' 8 4
/-- `RA = CMD[15:12]` (R92). -/
def ra (w : BitVec 32) : RegField := w.extractLsb' 12 4
/-- `RB = CMD[19:16]` (R92). -/
def rb (w : BitVec 32) : RegField := w.extractLsb' 16 4
/-- `V = CMD[20]` (R92). -/
def v (w : BitVec 32) : Bool := w.getLsbD 20
/-- `RSV = CMD[31:21]` (R92). -/
def rsv (w : BitVec 32) : BitVec 11 := w.extractLsb' 21 11

/-- Are all fields the format does not use zero (R97 (c))? -/
def unusedZero (f : Format) (w : BitVec 32) : Bool :=
  (f.usesRD || rd w == 0#4) && (f.usesRA || ra w == 0#4) && (f.usesRB || rb w == 0#4) && (f.usesV || !v w)

/-- Accept `i` if the fields its format leaves unused are zero. -/
def withFormat (f : Format) (w : BitVec 32) (i : Instr) : Except Illegal Instr :=
  if unusedZero f w then .ok i else .error .unusedField

end Cmd

/-- The opcode map of R98: which command, of which format, an opcode value selects; R97 (a) and (c). -/
def decodeOpcode (w : BitVec 32) : Except Illegal Instr :=
  match (Cmd.op w).toNat with
  | 0x01 => Cmd.withFormat .D w (.zeros (Cmd.rd w))
  | 0x02 => Cmd.withFormat .D w (.ones (Cmd.rd w))
  | 0x03 => Cmd.withFormat .DV w (.setall (Cmd.rd w) (Cmd.v w))
  | 0x04 => Cmd.withFormat .DV w (.set (Cmd.rd w) (Cmd.v w))
  | 0x05 => Cmd.withFormat .A w (.get (Cmd.ra w))
  | 0x06 => Cmd.withFormat .A w (.len (Cmd.ra w))
  | 0x07 => Cmd.withFormat .A w (.nwd (Cmd.ra w))
  | 0x08 => Cmd.withFormat .A w (.cnt (Cmd.ra w))
  | 0x09 => Cmd.withFormat .A w (.tzc (Cmd.ra w))
  | 0x0A => Cmd.withFormat .AB w (.eq (Cmd.ra w) (Cmd.rb w))
  | 0x0B => Cmd.withFormat .DA w (.mov (Cmd.rd w) (Cmd.ra w))
  | 0x0C => Cmd.withFormat .N w .cfg
  | 0x10 => Cmd.withFormat .DAB w (.and (Cmd.rd w) (Cmd.ra w) (Cmd.rb w))
  | 0x11 => Cmd.withFormat .DAB w (.or (Cmd.rd w) (Cmd.ra w) (Cmd.rb w))
  | 0x12 => Cmd.withFormat .DAB w (.xor (Cmd.rd w) (Cmd.ra w) (Cmd.rb w))
  | 0x13 => Cmd.withFormat .DA w (.not (Cmd.rd w) (Cmd.ra w))
  | 0x14 => Cmd.withFormat .DB w (.anda (Cmd.rd w) (Cmd.rb w))
  | 0x15 => Cmd.withFormat .DB w (.ora (Cmd.rd w) (Cmd.rb w))
  | 0x16 => Cmd.withFormat .DB w (.xora (Cmd.rd w) (Cmd.rb w))
  | 0x20 => Cmd.withFormat .DA w (.shr (Cmd.rd w) (Cmd.ra w))
  | 0x21 => Cmd.withFormat .DA w (.shl (Cmd.rd w) (Cmd.ra w))
  | 0x22 => Cmd.withFormat .D w (.shra (Cmd.rd w))
  | 0x23 => Cmd.withFormat .D w (.shla (Cmd.rd w))
  | 0x30 => Cmd.withFormat .A w (.rdw (Cmd.ra w))
  | 0x31 => Cmd.withFormat .D w (.wrw (Cmd.rd w))
  | _ => .error .opcode

/-- R97 (d): accept a command only when its register fields name registers. -/
def checkRegs (nm : Nat) (i : Instr) : Except Illegal Instr :=
  if i.WellFormed nm then .ok i else .error .registerIndex

/-- The decoder of a core with `nm` mask registers: R97 (a) to (d) over every 32-bit word. -/
def decode (nm : Nat) (w : BitVec 32) : Except Illegal Instr :=
  if Cmd.rsv w = 0#11 then
    match decodeOpcode w with
    | .ok i => checkRegs nm i
    | .error e => .error e
  else .error .reservedBits

/-! ## The encoder -/

/-- The opcode value of a command (R98). -/
def Instr.opcode : Instr → BitVec 8
  | .zeros _ => 0x01#8
  | .ones _ => 0x02#8
  | .setall _ _ => 0x03#8
  | .set _ _ => 0x04#8
  | .get _ => 0x05#8
  | .len _ => 0x06#8
  | .nwd _ => 0x07#8
  | .cnt _ => 0x08#8
  | .tzc _ => 0x09#8
  | .eq _ _ => 0x0A#8
  | .mov _ _ => 0x0B#8
  | .cfg => 0x0C#8
  | .and _ _ _ => 0x10#8
  | .or _ _ _ => 0x11#8
  | .xor _ _ _ => 0x12#8
  | .not _ _ => 0x13#8
  | .anda _ _ => 0x14#8
  | .ora _ _ => 0x15#8
  | .xora _ _ => 0x16#8
  | .shr _ _ => 0x20#8
  | .shl _ _ => 0x21#8
  | .shra _ => 0x22#8
  | .shla _ => 0x23#8
  | .rdw _ => 0x30#8
  | .wrw _ => 0x31#8

/-- The format of a command (R93, R98). -/
def Instr.format : Instr → Format
  | .cfg => .N
  | .zeros _ => .D
  | .ones _ => .D
  | .shra _ => .D
  | .shla _ => .D
  | .wrw _ => .D
  | .setall _ _ => .DV
  | .set _ _ => .DV
  | .get _ => .A
  | .len _ => .A
  | .nwd _ => .A
  | .cnt _ => .A
  | .tzc _ => .A
  | .rdw _ => .A
  | .eq _ _ => .AB
  | .mov _ _ => .DA
  | .not _ _ => .DA
  | .shr _ _ => .DA
  | .shl _ _ => .DA
  | .anda _ _ => .DB
  | .ora _ _ => .DB
  | .xora _ _ => .DB
  | .and _ _ _ => .DAB
  | .or _ _ _ => .DAB
  | .xor _ _ _ => .DAB

/-- The command word with these fields and `RSV = 0` (R91: RSV, V, RB, RA, RD, OP from bit 31 down). -/
def packCmd (op : BitVec 8) (rd ra rb : RegField) (v : Bool) : BitVec 32 :=
  0#11 ++ BitVec.ofBool v ++ rb ++ ra ++ rd ++ op

/-- The command word of a command: its opcode, its fields, and zero in every field it does not use (R91, R97). -/
def encode : Instr → BitVec 32
  | .zeros d => packCmd 0x01#8 d 0#4 0#4 false
  | .ones d => packCmd 0x02#8 d 0#4 0#4 false
  | .setall d v => packCmd 0x03#8 d 0#4 0#4 v
  | .set d v => packCmd 0x04#8 d 0#4 0#4 v
  | .get a => packCmd 0x05#8 0#4 a 0#4 false
  | .len a => packCmd 0x06#8 0#4 a 0#4 false
  | .nwd a => packCmd 0x07#8 0#4 a 0#4 false
  | .cnt a => packCmd 0x08#8 0#4 a 0#4 false
  | .tzc a => packCmd 0x09#8 0#4 a 0#4 false
  | .eq a b => packCmd 0x0A#8 0#4 a b false
  | .mov d a => packCmd 0x0B#8 d a 0#4 false
  | .cfg => packCmd 0x0C#8 0#4 0#4 0#4 false
  | .and d a b => packCmd 0x10#8 d a b false
  | .or d a b => packCmd 0x11#8 d a b false
  | .xor d a b => packCmd 0x12#8 d a b false
  | .not d a => packCmd 0x13#8 d a 0#4 false
  | .anda d b => packCmd 0x14#8 d 0#4 b false
  | .ora d b => packCmd 0x15#8 d 0#4 b false
  | .xora d b => packCmd 0x16#8 d 0#4 b false
  | .shr d a => packCmd 0x20#8 d a 0#4 false
  | .shl d a => packCmd 0x21#8 d a 0#4 false
  | .shra d => packCmd 0x22#8 d 0#4 0#4 false
  | .shla d => packCmd 0x23#8 d 0#4 0#4 false
  | .rdw a => packCmd 0x30#8 0#4 a 0#4 false
  | .wrw d => packCmd 0x31#8 d 0#4 0#4 false

/-! ## The opcode table's numbering -/

/-- The command word the host's `nbits`-bit row word `w` spells: its low `nbits` bits, every bit above them 0.
A command is one 32-bit number (R90), so the table's numbering is the word's own. -/
def tableWord (nbits w : Nat) : BitVec 32 := BitVec.ofNat 32 (w % 2 ^ nbits)

/-- What the decoder reads from a row of the opcode table, on the reference build's `NM = 4` registers, which is
the build `State.reset` has (notes/assumptions/2.md). -/
def decodeTableWord (nbits w : Nat) : Option Instr :=
  match decode Params.reference.nm (tableWord nbits w) with
  | .ok i => some i
  | .error _ => none

end Sys2Proof
end

