-- ==== Sys2Proof/Machine/HostPort.lean ====
section
/-! DEFINITION. The host's side of a transaction (30_encoding.md R110 to R112): what the host does next, taking a
command from the ports, the response, and the reset event (70_reset_and_hazards.md R300). -/

namespace Sys2Proof.Machine

/-- What the unit presents after a command (R110). -/
structure Response (W : Nat) where
  /-- Port `STATUS`. -/
  status : BitVec 4
  /-- Port `RES`. -/
  res : BitVec 64
  /-- Port `RWD`. -/
  rwd : Word W
  deriving DecidableEq, Repr

namespace State

/-- What the host does next; `none` when its list is at its end (R39). -/
def nextEvent (s : State) : Option (HostEvent s.cfg.W) := s.script[s.pos]?

/-- The host presents `t` and moves to its next event (R39, R110). -/
def accept (s : State) (t : Transaction s.cfg.W) : State :=
  { s with port := t, pos := s.pos + 1 }

/-- The unit after `RST`: every piece of architectural state at its reset value, whatever it was (R300); the host
moves to its next event. -/
def applyReset (s : State) : State :=
  { s with
    m := Vector.replicate s.cfg.nm (MaskReg.empty s.cfg.W s.cfg.nw)
    status := 0#4
    res := 0#64
    rwd := 0#s.cfg.W
    pos := s.pos + 1 }

/-- The response the host reads: the three result registers (R110). Reading it changes nothing (R112). -/
def response (s : State) : Response s.cfg.W := ⟨s.status, s.res, s.rwd⟩

/-- The command on the port, decoded for this build (R97). -/
def decoded (s : State) : Except Illegal Instr := decode s.cfg.nm s.port.cmd

/-- `s` with `t` as the only thing the host has left to do. -/
def withTransaction (s : State) (t : Transaction s.cfg.W) : State :=
  { s with script := [.issue t], pos := 0 }

end State

end Sys2Proof.Machine
end

