-- ==== Sys2Proof/Machine/Step.lean ====
section
/-! DEFINITION. One step: what the host does next, done to the unit. An issued command is one atomic step
(20_memory.md R71): it is decoded, and executed if it is legal; an illegal word raises ILLEGAL_COMMAND
(60_exceptions.md R273). The unit is idle, with all state held, when the host does nothing (R288). -/

namespace Sys2Proof.Machine

/-- Execute the command on the port: decode errors come before any operand check (60_exceptions.md R276). -/
def runCommand (s : State) : Host.Outcome State Fault Refusal :=
  match s.decoded with
  | .ok i => exec i s
  | .error _ => .next (s.raise .illegalCommand)

/-- One step of the machine. -/
def step (s : State) : Host.Outcome State Fault Refusal :=
  match s.nextEvent with
  | none => .next s
  | some (.issue t) => runCommand (s.accept t)
  | some .reset => .next s.applyReset
  | some (.resetDuring _) => .next s.applyReset
  | some (.overlap _ _) => .refused .overlappingIssue

/-- `s` with the table's word `w` as the command the host issues next, its operands 0 (notes/assumptions/3.md). -/
def State.withFetchWord (s : State) (nbits w : Nat) : State :=
  s.withTransaction ⟨tableWord nbits w, 0#64, 0#s.cfg.W⟩

end Sys2Proof.Machine
end

