-- ==== Sys2Proof/Machine/Assembler.lean ====
section
/-! DEFINITION. The assembler of 30_encoding.md R100 and the pseudo-instructions of R101: what a statement puts on
the three input ports. It is how a program is written down for the host's list; the unit itself never sees it. -/

namespace Sys2Proof.Machine

/-- A statement of R100, by its operands: the registers, and the scalar and data operands where it has them. -/
inductive Stmt (W : Nat) where
  | zeros (d : RegField) (size : BitVec 64)
  | ones (d : RegField) (size : BitVec 64)
  | setall (d : RegField) (v : Bool)
  | set (d : RegField) (i : BitVec 64) (v : Bool)
  | get (a : RegField) (i : BitVec 64)
  | len (a : RegField)
  | nwd (a : RegField)
  | cnt (a : RegField)
  | tzc (a : RegField)
  | cfg
  | eq (a b : RegField)
  | mov (d a : RegField)
  | not (d a : RegField)
  | and (d a b : RegField)
  | or (d a b : RegField)
  | xor (d a b : RegField)
  | anda (d b : RegField)
  | ora (d b : RegField)
  | xora (d b : RegField)
  | shr (d a : RegField) (n : BitVec 64)
  | shl (d a : RegField) (n : BitVec 64)
  | shra (d : RegField) (n : BitVec 64)
  | shla (d : RegField) (n : BitVec 64)
  | rdw (a : RegField) (k : BitVec 64)
  | wrw (d : RegField) (k : BitVec 64) (data : Word W)
  deriving DecidableEq, Repr

/-- The pseudo-instructions of R101. -/
inductive Pseudo where
  | clr (d : RegField)
  | fill (d : RegField)
  | setb (d : RegField) (i : BitVec 64)
  | clrb (d : RegField) (i : BitVec 64)
  | inv (d : RegField)
  | nop
  deriving DecidableEq, Repr

/-- The ports' values for a statement; an operand a command does not use is 0 (R100). -/
def assemble {W : Nat} : Stmt W → Transaction W
  | .zeros d size => ⟨encode (.zeros d), size, 0#W⟩
  | .ones d size => ⟨encode (.ones d), size, 0#W⟩
  | .setall d v => ⟨encode (.setall d v), 0#64, 0#W⟩
  | .set d i v => ⟨encode (.set d v), i, 0#W⟩
  | .get a i => ⟨encode (.get a), i, 0#W⟩
  | .len a => ⟨encode (.len a), 0#64, 0#W⟩
  | .nwd a => ⟨encode (.nwd a), 0#64, 0#W⟩
  | .cnt a => ⟨encode (.cnt a), 0#64, 0#W⟩
  | .tzc a => ⟨encode (.tzc a), 0#64, 0#W⟩
  | .cfg => ⟨encode .cfg, 0#64, 0#W⟩
  | .eq a b => ⟨encode (.eq a b), 0#64, 0#W⟩
  | .mov d a => ⟨encode (.mov d a), 0#64, 0#W⟩
  | .not d a => ⟨encode (.not d a), 0#64, 0#W⟩
  | .and d a b => ⟨encode (.and d a b), 0#64, 0#W⟩
  | .or d a b => ⟨encode (.or d a b), 0#64, 0#W⟩
  | .xor d a b => ⟨encode (.xor d a b), 0#64, 0#W⟩
  | .anda d b => ⟨encode (.anda d b), 0#64, 0#W⟩
  | .ora d b => ⟨encode (.ora d b), 0#64, 0#W⟩
  | .xora d b => ⟨encode (.xora d b), 0#64, 0#W⟩
  | .shr d a n => ⟨encode (.shr d a), n, 0#W⟩
  | .shl d a n => ⟨encode (.shl d a), n, 0#W⟩
  | .shra d n => ⟨encode (.shra d), n, 0#W⟩
  | .shla d n => ⟨encode (.shla d), n, 0#W⟩
  | .rdw a k => ⟨encode (.rdw a), k, 0#W⟩
  | .wrw d k data => ⟨encode (.wrw d), k, data⟩

/-- The expansions of R101. -/
def Pseudo.expand {W : Nat} : Pseudo → Stmt W
  | .clr d => .setall d false
  | .fill d => .setall d true
  | .setb d i => .set d i true
  | .clrb d i => .set d i false
  | .inv d => .not d d
  | .nop => .len 0#4

end Sys2Proof.Machine
end

