-- ==== Sys2Proof/Safety.lean ====
section
/-! DEFINITION. The terms claims are stated in: the bit-level reading of a register value (00_scope.md R15), value
identity (10_state.md R47), and what counts as a safe state and a safe outcome: every register keeps the bound of
R31 and the padding-zero invariant of R35, and the machine answers a next state; the register-use table of R37; and
the opcode map and the illegal words of 30_encoding.md, written a second time from R91, R93, R97 and R98.
No command uses these; they say what the commands' word-level rules amount to. -/

namespace Sys2Proof.Machine

namespace MaskReg

variable {W NW : Nat}

/-- `bit(X, j)`: bit `j % W` of word `j / W` for `j < NW*W`, and 0 beyond (R15). -/
def bit (X : MaskReg W NW) (j : Nat) : Bool :=
  if j < NW * W then (X.phys (j / W)).getLsbD (j % W) else false

/-- `mk(L, f)`: the value of length `L` whose bit `j` is `f j` for `j < L` and 0 above (R15). -/
def ofBits (W NW L : Nat) (f : Nat → Bool) : MaskReg W NW :=
  build W NW L fun k => BitVec.ofFnLE fun b : Fin W => decide (k * W + b.val < L) && f (k * W + b.val)

/-- `render(X)`: the characters `'0'` and `'1'` of the logical bits, index 0 first (R15). -/
def render (X : MaskReg W NW) : String :=
  String.ofList ((List.range X.len).map fun j => if X.bit j then '1' else '0')

/-- Value identity: equal lengths and equal allocated words (R47). -/
abbrev SameValue (X Y : MaskReg W NW) : Prop :=
  X.len = Y.len ∧ ∀ k, k < nwords W X.len → X.phys k = Y.phys k

/-- `INV(X)`: every physical bit at or above the logical length is 0 (R35). -/
abbrev PadZero (X : MaskReg W NW) : Prop :=
  ∀ j, j < NW * W → X.len ≤ j → X.bit j = false

/-- The range of `len`: at most `L_MAX = NW*W - 1` (R31). -/
abbrev Bounded (X : MaskReg W NW) : Prop := X.len ≤ NW * W - 1

/-- Both invariants of one register value. -/
abbrev Inv (X : MaskReg W NW) : Prop := X.Bounded ∧ X.PadZero

end MaskReg

/-- The invariant of the register file: every mask register keeps R31 and R35. -/
abbrev State.Inv (s : State) : Prop := ∀ r : RegField, r.toNat < s.cfg.nm → (s.reg r).Inv

/-- `s` with `n` on the port `OPND` (30_encoding.md R94). -/
def State.withOpnd (s : State) (n : BitVec 64) : State := { s with port := { s.port with opnd := n } }

/-- A safe outcome: a next state that keeps the invariant. -/
def SafeOutcome (o : Host.Outcome State Fault Refusal) : Prop := ∃ t, o = .next t ∧ t.Inv

end Sys2Proof.Machine

namespace Sys2Proof

/-! ## Register use by command (10_state.md R37) -/

/-- The column "writes": the mask register a command writes. -/
def Instr.dest : Instr → Option RegField
  | .zeros d => some d
  | .ones d => some d
  | .setall d _ => some d
  | .set d _ => some d
  | .mov d _ => some d
  | .not d _ => some d
  | .shr d _ => some d
  | .shl d _ => some d
  | .and d _ _ => some d
  | .or d _ _ => some d
  | .xor d _ _ => some d
  | .anda d _ => some d
  | .ora d _ => some d
  | .xora d _ => some d
  | .shra d => some d
  | .shla d => some d
  | .wrw d => some d
  | .get _ => none
  | .len _ => none
  | .nwd _ => none
  | .cnt _ => none
  | .tzc _ => none
  | .eq _ _ => none
  | .cfg => none
  | .rdw _ => none

/-- The column "reads": the mask registers a command reads. -/
def Instr.sources : Instr → List RegField
  | .zeros _ => []
  | .ones _ => []
  | .setall d _ => [d]
  | .set d _ => [d]
  | .mov _ a => [a]
  | .not _ a => [a]
  | .shr _ a => [a]
  | .shl _ a => [a]
  | .and _ a b => [a, b]
  | .or _ a b => [a, b]
  | .xor _ a b => [a, b]
  | .anda d b => [d, b]
  | .ora d b => [d, b]
  | .xora d b => [d, b]
  | .shra d => [d]
  | .shla d => [d]
  | .get a => [a]
  | .len a => [a]
  | .nwd a => [a]
  | .cnt a => [a]
  | .tzc a => [a]
  | .eq a b => [a, b]
  | .cfg => []
  | .rdw a => [a]
  | .wrw d => [d]

/-- The commands that write `RES`: GET, LEN, NWD, CNT, TZC, EQ and CFG (R37, R40). -/
def Instr.writesRes : Instr → Bool
  | .get _ => true
  | .len _ => true
  | .nwd _ => true
  | .cnt _ => true
  | .tzc _ => true
  | .eq _ _ => true
  | .cfg => true
  | .zeros _ => false
  | .ones _ => false
  | .setall _ _ => false
  | .set _ _ => false
  | .mov _ _ => false
  | .not _ _ => false
  | .shr _ _ => false
  | .shl _ _ => false
  | .and _ _ _ => false
  | .or _ _ _ => false
  | .xor _ _ _ => false
  | .anda _ _ => false
  | .ora _ _ => false
  | .xora _ _ => false
  | .shra _ => false
  | .shla _ => false
  | .rdw _ => false
  | .wrw _ => false

/-- The command that writes `RWD`: RDW (R37, R41). -/
def Instr.writesRwd : Instr → Bool
  | .rdw _ => true
  | .zeros _ => false
  | .ones _ => false
  | .setall _ _ => false
  | .set _ _ => false
  | .mov _ _ => false
  | .not _ _ => false
  | .shr _ _ => false
  | .shl _ _ => false
  | .and _ _ _ => false
  | .or _ _ _ => false
  | .xor _ _ _ => false
  | .anda _ _ => false
  | .ora _ _ => false
  | .xora _ _ => false
  | .shra _ => false
  | .shla _ => false
  | .get _ => false
  | .len _ => false
  | .nwd _ => false
  | .cnt _ => false
  | .tzc _ => false
  | .eq _ _ => false
  | .cfg => false
  | .wrw _ => false

/-- The commands that read the scalar operand `OPND` (30_encoding.md R94). -/
def Instr.readsOpnd : Instr → Bool
  | .zeros _ => true
  | .ones _ => true
  | .set _ _ => true
  | .get _ => true
  | .shr _ _ => true
  | .shl _ _ => true
  | .shra _ => true
  | .shla _ => true
  | .rdw _ => true
  | .wrw _ => true
  | .setall _ _ => false
  | .mov _ _ => false
  | .len _ => false
  | .nwd _ => false
  | .cnt _ => false
  | .tzc _ => false
  | .cfg => false
  | .and _ _ _ => false
  | .or _ _ _ => false
  | .xor _ _ _ => false
  | .not _ _ => false
  | .anda _ _ => false
  | .ora _ _ => false
  | .xora _ _ => false
  | .eq _ _ => false

/-! ## Command words (30_encoding.md R91 to R98) -/

/-- `CMD = OP | (RD << 8) | (RA << 12) | (RB << 16) | (V << 20)`, with `RSV = 0` (R91). -/
def cmdWord (op : Nat) (rd ra rb : RegField) (v : Bool) : BitVec 32 :=
  BitVec.ofNat 32 op ||| (rd.setWidth 32 <<< 8) ||| (ra.setWidth 32 <<< 12) ||| (rb.setWidth 32 <<< 16) |||
    ((BitVec.ofBool v).setWidth 32 <<< 20)

/-- The opcode map of R98, in its order: opcode value and format. -/
def opcodeMap : List (Nat × Format) :=
  [(0x01, .D), (0x02, .D), (0x03, .DV), (0x0B, .DA), (0x04, .DV), (0x05, .A), (0x06, .A), (0x07, .A), (0x08, .A),
   (0x09, .A), (0x0C, .N)] ++
  [(0x10, .DAB), (0x11, .DAB), (0x12, .DAB), (0x13, .DA), (0x14, .DB), (0x15, .DB), (0x16, .DB)] ++
  [(0x20, .DA), (0x21, .DA), (0x22, .D), (0x23, .D), (0x0A, .AB), (0x30, .A), (0x31, .D)]

/-- R97: the four conditions that make a command word illegal on a core with `nm` mask registers. -/
def IllegalWord (nm : Nat) (w : BitVec 32) : Prop :=
  (∀ row ∈ opcodeMap, w.toNat % 256 ≠ row.1) ∨
  w.toNat / 2 ^ 21 ≠ 0 ∨
  (∃ row ∈ opcodeMap, w.toNat % 256 = row.1 ∧
    ((row.2.usesRD = false ∧ w.toNat / 2 ^ 8 % 16 ≠ 0) ∨ (row.2.usesRA = false ∧ w.toNat / 2 ^ 12 % 16 ≠ 0) ∨
     (row.2.usesRB = false ∧ w.toNat / 2 ^ 16 % 16 ≠ 0) ∨ (row.2.usesV = false ∧ w.toNat / 2 ^ 20 % 2 ≠ 0))) ∨
  (∃ row ∈ opcodeMap, w.toNat % 256 = row.1 ∧
    ((row.2.usesRD = true ∧ nm ≤ w.toNat / 2 ^ 8 % 16) ∨ (row.2.usesRA = true ∧ nm ≤ w.toNat / 2 ^ 12 % 16) ∨
     (row.2.usesRB = true ∧ nm ≤ w.toNat / 2 ^ 16 % 16)))

end Sys2Proof
end

