-- ==== Sys2Proof/Certificates/Slice0/Obligations.lean ====
section
/-! DEFINITION. The statements for the provers. Each docstring names the rule of spec/ it formalises. A next state is
written out as an update of the old one, so that whatever an update does not name is unchanged: that is the
statement's frame. `s.m.setIfInBounds d.toNat T` is the register file after `M[d] <- T`; the hypothesis
`d.toNat < s.cfg.nm` is that the register field names a register (30_encoding.md R97 (d)). All statements are about
every admitted build `W`, `NW`, `NM`, which a state carries in its field `cfg`. -/

open Sys2Proof Sys2Proof.Machine

/-! ## Reset -/

/-- 10_state.md R45: after reset every register is `zeros(0)`, `STATUS = 0`, `RES = 0`, `RWD = ZERO`. -/
def Obligations.ResetStateValues : Prop :=
  ∀ cfg : Params,
    (∀ r : RegField, r.toNat < cfg.nm →
      ((State.resetOf cfg).reg r).len = 0 ∧
      ∀ k (hk : k < cfg.nw), ((State.resetOf cfg).reg r).w[k] = 0#cfg.W) ∧
    (State.resetOf cfg).status = 0#4 ∧ (State.resetOf cfg).res = 0#64 ∧ (State.resetOf cfg).rwd = 0#cfg.W

/-- 70_reset_and_hazards.md R302: the reset state satisfies the invariant, and every command is defined from the
first command after reset. The second half says it of every transaction the host may issue first. -/
def Obligations.ResetSatisfiesInvariant : Prop :=
  ∀ cfg : Params, (State.resetOf cfg).Inv ∧
    ∀ t : Transaction cfg.W, SafeOutcome (step ((State.resetOf cfg).withTransaction t))

/-- 70_reset_and_hazards.md R300: a reset, while idle or during a command, gives every piece of architectural state
its reset value whatever it was, and the command in progress has no effect. What the model's own fields do at a reset
(the ports and the list stay, the position moves; notes/assumptions/11.md) is no part of the rule. -/
def Obligations.ResetEventClearsAllState : Prop :=
  ∀ (s : State) (ev : HostEvent s.cfg.W), s.nextEvent = some ev →
    (ev = .reset ∨ ∃ t, ev = .resetDuring t) →
    ∃ (m : Vector s.Reg s.cfg.nm) (p : Transaction s.cfg.W) (n : Nat),
      (∀ k (hk : k < s.cfg.nm), m[k].len = 0 ∧ ∀ j (hj : j < s.cfg.nw), m[k].w[j] = 0#s.cfg.W) ∧
      step s = .next { s with m := m, status := 0#4, res := 0#64, rwd := 0#s.cfg.W, port := p, pos := n }

/-! ## The step -/

/-- A step runs the decoded command: when the host issues `t` and `t.cmd` decodes to `i`, the step is `exec i` on
the state with `t` on the ports and the host's position advanced (30_encoding.md R110, 10_state.md R39). That the
host is a list in the state and the ports a field is the model's choice (notes/assumptions/3.md, 4.md). -/
def Obligations.StepRunsDecodedCommand : Prop :=
  ∀ (s : State) (t : Transaction s.cfg.W) (i : Instr),
    s.script[s.pos]? = some (.issue t) → decode s.cfg.nm t.cmd = .ok i →
    i.WellFormed s.cfg.nm ∧ step s = exec i { s with port := t, pos := s.pos + 1 }

/-- 60_exceptions.md R273 with 30_encoding.md R97: an illegal command word, whatever its operands, raises
ILLEGAL_COMMAND and changes no architectural state other than `STATUS`. What the ports and the host's list hold
after it is the model's choice (notes/assumptions/3.md, 4.md). -/
def Obligations.IllegalWordOnlySetsStatus : Prop :=
  ∀ (s : State) (t : Transaction s.cfg.W),
    s.script[s.pos]? = some (.issue t) → IllegalWord s.cfg.nm t.cmd →
    step s = .next { s with status := 3#4, port := t, pos := s.pos + 1 }

/-- 60_exceptions.md R288: between commands the unit is idle with all state held. That a step at the end of the
host's list answers the same state is the model's deduction from it (notes/assumptions/9.md). -/
def Obligations.IdleStepHoldsState : Prop :=
  ∀ s : State, s.script[s.pos]? = none → step s = .next s

/-- 70_reset_and_hazards.md R313: an issue while a command is outstanding has no defined effect. The overlap as a
host event and its refusal are the model's treatment (notes/assumptions/10.md), after 30_encoding.md R112, "A model
refuses such a run". The step refuses nothing else, and it never faults. -/
def Obligations.OnlyOverlappingIssueIsRefused : Prop :=
  ∀ s : State,
    ((∃ t u, s.nextEvent = some (.overlap t u)) → step s = .refused .overlappingIssue) ∧
    ((¬∃ t u, s.nextEvent = some (.overlap t u)) → ∃ s', step s = .next s')

/-- 10_state.md R39: a step that executes a command, legal or not, moves the position in the host's list by exactly
1. That the list stays (notes/assumptions/3.md), that the ports hold the command afterwards (notes/assumptions/4.md)
and that the build parameters are a field (notes/assumptions/1.md) are the model's choices. -/
def Obligations.CommandStepAdvancesPositionByOne : Prop :=
  ∀ (s : State) (t : Transaction s.cfg.W), s.script[s.pos]? = some (.issue t) →
    ∃ m st r w, step s =
      .next { s with m := m, status := st, res := r, rwd := w, port := t, pos := s.pos + 1 }

/-- 10_state.md R43: the build parameters are fixed at build time; no step of any kind changes them. That they are
carried in the state is the model's choice (notes/assumptions/1.md), and so is the host's list, which no step changes
either (notes/assumptions/3.md). -/
def Obligations.StepKeepsBuildParameters : Prop :=
  ∀ s s' : State, step s = .next s' →
    ∃ m st r w p n, s' = { s with m := m, status := st, res := r, rwd := w, port := p, pos := n }

/-! ## Invariants and whole-machine rules -/

/-- 10_state.md R31, R35, R36: every step, from every state that meets it, keeps the length bound and the
padding-zero invariant of every mask register. -/
def Obligations.StepKeepsPaddingZero : Prop :=
  ∀ s s' : State, s.Inv → step s = .next s' → s'.Inv

/-- Every command, legal or not, answers a next state and keeps the invariant (10_state.md R36,
60_exceptions.md R270). -/
def Obligations.EveryCommandIsSafe : Prop :=
  ∀ (i : Instr) (s : State), s.Inv → SafeOutcome (exec i s)

/-- 60_exceptions.md R277: a command that raises an error writes `STATUS` and nothing else. -/
def Obligations.ErrorWritesOnlyStatus : Prop :=
  ∀ s s' : State, runCommand s = .next s' → s'.status ≠ 0#4 → s' = { s with status := s'.status }

/-- 60_exceptions.md R271: which code a command leaves in `STATUS`, by its cause; codes 4 to 15 are never raised. -/
def Obligations.StatusCodeNamesItsCause : Prop :=
  ∀ s s' : State, runCommand s = .next s' →
    (s'.status = 1#4 ↔
      (∃ d v, decode s.cfg.nm s.port.cmd = .ok (.set d v) ∧ (s.reg d).len ≤ s.port.opnd.toNat) ∨
      (∃ a, decode s.cfg.nm s.port.cmd = .ok (.get a) ∧ (s.reg a).len ≤ s.port.opnd.toNat) ∨
      (∃ a, decode s.cfg.nm s.port.cmd = .ok (.rdw a) ∧ (s.reg a).len / s.cfg.W + 1 ≤ s.port.opnd.toNat) ∨
      (∃ d, decode s.cfg.nm s.port.cmd = .ok (.wrw d) ∧ (s.reg d).len / s.cfg.W + 1 ≤ s.port.opnd.toNat)) ∧
    (s'.status = 2#4 ↔
      ∃ d, (decode s.cfg.nm s.port.cmd = .ok (.zeros d) ∨ decode s.cfg.nm s.port.cmd = .ok (.ones d)) ∧
        s.cfg.nw * s.cfg.W - 1 < s.port.opnd.toNat) ∧
    (s'.status = 3#4 ↔ IllegalWord s.cfg.nm s.port.cmd) ∧
    s'.status.toNat ≤ 3

/-- 10_state.md R37, R40, R41, R44: the frame of every command. Beside `STATUS`, a command changes at most the one
mask register its row of R37's table names, `RES` only for the seven commands of R40, and `RWD` only for RDW; the
ports, the build parameters and the host's list are unchanged. -/
def Obligations.CommandWritesOnlyItsDestination : Prop :=
  ∀ (i : Instr) (s : State), ∃ m st r w,
    exec i s = .next { s with m := m, status := st, res := r, rwd := w } ∧
    (∀ k (hk : k < s.cfg.nm), (∀ d, i.dest = some d → d.toNat ≠ k) → m[k] = s.m[k]) ∧
    (i.writesRes = false → r = s.res) ∧ (i.writesRwd = false → w = s.rwd)

/-- 10_state.md R37: a command reads no state but its source registers. Two states that agree on the registers of
the table's column "reads", and have the same operands, get the same `STATUS`, the same written register, the same
`RES` and the same `RWD` from a command that succeeds. -/
def Obligations.CommandReadsOnlyItsSources : Prop :=
  ∀ (i : Instr) (s : State) (m' : Vector s.Reg s.cfg.nm) (st' : BitVec 4) (r' : BitVec 64) (w' : Word s.cfg.W),
    (∀ x ∈ i.sources, State.reg { s with m := m', status := st', res := r', rwd := w' } x = s.reg x) →
    ∃ m st r w m₂ r₂ w₂,
      exec i s = .next { s with m := m, status := st, res := r, rwd := w } ∧
      exec i { s with m := m', status := st', res := r', rwd := w' } =
        .next { s with m := m₂, status := st, res := r₂, rwd := w₂ } ∧
      (st = 0#4 → (∀ d, i.dest = some d → ∀ hd : d.toNat < s.cfg.nm, m[d.toNat] = m₂[d.toNat]) ∧
        (i.writesRes = true → r = r₂) ∧ (i.writesRwd = true → w = w₂))

/-- 30_encoding.md R95: every command but WRW ignores `WDATA`: another value there gives the same outcome. -/
def Obligations.OnlyWrwReadsWdata : Prop :=
  ∀ (i : Instr) (s : State) (x : Word s.cfg.W), (∀ d, i ≠ .wrw d) →
    ∃ m st r w,
      exec i s = .next { s with m := m, status := st, res := r, rwd := w } ∧
      exec i { s with port := { s.port with wdata := x } } =
        .next { s with m := m, status := st, res := r, rwd := w, port := { s.port with wdata := x } }

/-- 30_encoding.md R94, the row "all others": a command outside R94's list ignores `OPND`: another value there gives
the same outcome. -/
def Obligations.OtherCommandsIgnoreOpnd : Prop :=
  ∀ (i : Instr) (s : State) (n : BitVec 64), i.readsOpnd = false →
    ∃ m st r w,
      exec i s = .next { s with m := m, status := st, res := r, rwd := w } ∧
      exec i (s.withOpnd n) = .next { s.withOpnd n with m := m, status := st, res := r, rwd := w }

/-- 20_memory.md R71: the query commands leave every mask register alone, and repeating one gives the same result. -/
def Obligations.QueriesAreIdempotent : Prop :=
  ∀ (i : Instr) (s : State), i.writesRes = true ∨ i.writesRwd = true →
    ∃ st r w, exec i s = .next { s with status := st, res := r, rwd := w } ∧
      exec i { s with status := st, res := r, rwd := w } = .next { s with status := st, res := r, rwd := w }

/-- 30_encoding.md R97 (d) on `exec` itself: a command with a register field that names no register raises
ILLEGAL_COMMAND before any operand check (60_exceptions.md R276) and changes nothing else. That `exec` makes the
check again after the decoder is the model's choice (notes/assumptions/5.md). -/
def Obligations.UnnamedRegisterRaisesIllegalCommand : Prop :=
  ∀ (i : Instr) (s : State), ¬i.WellFormed s.cfg.nm → exec i s = .next { s with status := 3#4 }

/-! ## Encoding -/

/-- Decode and encode agree: every well-formed command decodes from its own word, whatever its fields
(30_encoding.md R91, R92, R98). -/
def Obligations.DecodeOfEncode : Prop :=
  ∀ (nm : Nat) (i : Instr), i.WellFormed nm → decode nm (encode i) = .ok i

/-- Each accepted word has one meaning: a word that decodes is the word of its command (30_encoding.md R97). -/
def Obligations.EncodeOfDecode : Prop :=
  ∀ (nm : Nat) (w : BitVec 32) (i : Instr), decode nm w = .ok i → i.WellFormed nm ∧ encode i = w

/-- 30_encoding.md R97: a word is rejected exactly when one of (a) to (d) holds, and every other word selects
exactly one command. -/
def Obligations.DecoderRejectsExactlyIllegalWords : Prop :=
  ∀ (nm : Nat) (w : BitVec 32),
    ((∃ e, decode nm w = .error e) ↔ IllegalWord nm w) ∧
    (¬IllegalWord nm w → ∃! i, decode nm w = .ok i)

/-- 30_encoding.md R93: a word matches an opcode exactly when the bits of the format's mask match the opcode value.
The register check of R97 (d) is out of the way at `nm = 16`, where every 4-bit field names a register. -/
def Obligations.WordMatchesItsFormatMask : Prop :=
  ∀ (w : BitVec 32) (x : BitVec 8) (f : Format), (x.toNat, f) ∈ opcodeMap →
    ((w &&& f.mask) = x.setWidth 32 ↔ ∃ i, decode 16 w = .ok i ∧ i.opcode = x ∧ i.format = f)

/-- 30_encoding.md R102: the encoding and decoding examples. -/
def Obligations.EncodingExamples : Prop :=
  encode (.set 0#4 true) = 0x00100004#32 ∧ decode 4 0x00100004#32 = .ok (.set 0#4 true) ∧
  encode (.ora 0#4 1#4) = 0x00010015#32 ∧ decode 4 0x00010015#32 = .ok (.ora 0#4 1#4) ∧
  encode (.shr 1#4 0#4) = 0x00000120#32 ∧ decode 4 0x00000120#32 = .ok (.shr 1#4 0#4) ∧
  encode (.eq 1#4 2#4) = 0x0002100A#32 ∧ decode 4 0x0002100A#32 = .ok (.eq 1#4 2#4) ∧
  encode (.and 3#4 1#4 2#4) = 0x00021310#32 ∧ decode 4 0x00021310#32 = .ok (.and 3#4 1#4 2#4) ∧
  encode (.wrw 0#4) = 0x00000031#32 ∧ decode 4 0x00000031#32 = .ok (.wrw 0#4) ∧
  encode .cfg = 0x0000000C#32 ∧ decode 4 0x0000000C#32 = .ok .cfg ∧
  decode 4 0x00200004#32 = .error .reservedBits ∧
  decode 4 0x00001001#32 = .error .unusedField

/-- 30_encoding.md R101: the pseudo-instructions are the commands they stand for, and NOP writes `RES` with
`M0.len`, `STATUS` with 0, and changes no mask register. -/
def Obligations.PseudoInstructionExpansions : Prop :=
  ∀ (s : State) (d : RegField) (i : BitVec 64),
    Pseudo.expand (W := s.cfg.W) (.clr d) = .setall d false ∧
    Pseudo.expand (W := s.cfg.W) (.fill d) = .setall d true ∧
    Pseudo.expand (W := s.cfg.W) (.setb d i) = .set d i true ∧
    Pseudo.expand (W := s.cfg.W) (.clrb d i) = .set d i false ∧
    Pseudo.expand (W := s.cfg.W) (.inv d) = .not d d ∧
    Pseudo.expand (W := s.cfg.W) .nop = .len 0#4 ∧
    runCommand { s with port := assemble (Pseudo.expand .nop) } =
      .next { s with port := assemble (Pseudo.expand .nop), res := BitVec.ofNat 64 (s.reg 0#4).len, status := 0#4 }

/-! ## Index decoding, lookup, tail mask, value identity -/

/-- 20_memory.md R64: the tail mask has its low `L % W` bits 1 and its other bits 0, and is `ZERO` when
`L % W = 0`. -/
def Obligations.TailMaskHasLowBits : Prop :=
  ∀ (cfg : Params) (L : Nat),
    (∀ b, (tailmask cfg.W L : Word cfg.W).getLsbD b = decide (b < L % cfg.W)) ∧
    (tailmask cfg.W L : Word cfg.W).toNat = 2 ^ (L % cfg.W) - 1 ∧
    (L % cfg.W = 0 → (tailmask cfg.W L : Word cfg.W) = 0#cfg.W)

/-- 20_memory.md R63: the implicit-zero lookup is the physical word below `nwords(len)` and `ZERO` elsewhere; under
the padding-zero invariant it is the physical word for every `k < NW`. -/
def Obligations.WordLookupIsImplicitZero : Prop :=
  ∀ (W NW : Nat) (X : MaskReg W NW) (k : Nat),
    (∀ hk : k < NW, k < X.len / W + 1 → X.word k = X.w[k]) ∧
    (X.len / W + 1 ≤ k → X.word k = 0#W) ∧ (NW ≤ k → X.word k = 0#W) ∧
    (X.PadZero → ∀ hk : k < NW, X.word k = X.w[k])

/-- 20_memory.md R65: the tail correction touches only the tail word, `len / W`, and there clears exactly the bits at
or above `len`; for a value whose words above the tail word are `ZERO` it establishes the padding rule
(10_state.md R35) and keeps every logical bit. -/
def Obligations.TailfixClearsPadding : Prop :=
  ∀ (cfg : Params) (T : MaskReg cfg.W cfg.nw),
    T.tailfix.len = T.len ∧
    (∀ k, k ≠ T.len / cfg.W → T.tailfix.phys k = T.phys k) ∧
    T.tailfix.phys (T.len / cfg.W) = T.phys (T.len / cfg.W) &&& tailmask cfg.W T.len ∧
    ((∀ k, T.len / cfg.W < k → T.phys k = 0#cfg.W) → T.tailfix.PadZero ∧ ∀ j < T.len, T.tailfix.bit j = T.bit j)

/-- 10_state.md R47: under the invariant, value identity is equality of the length and every physical word, and
equality of the length and every logical bit. -/
def Obligations.ValueIdentityThreeForms : Prop :=
  ∀ (cfg : Params) (X Y : MaskReg cfg.W cfg.nw), X.Inv → Y.Inv →
    (X.SameValue Y ↔ X.len = Y.len ∧ ∀ k (hk : k < cfg.nw), X.w[k] = Y.w[k]) ∧
    (X.SameValue Y ↔ X.len = Y.len ∧ ∀ j < X.len, X.bit j = Y.bit j)

/-! ## Construction and fill -/

/-- 41_construction.md R120, ZEROS: the all-zero mask of length `size`, or CAPACITY_EXCEEDED with nothing else
changed. -/
def Obligations.ZerosConstructsZeroMask : Prop :=
  ∀ (d : RegField) (s : State), d.toNat < s.cfg.nm →
    encode (.zeros d) = cmdWord 0x01 d 0#4 0#4 false ∧
    (s.port.opnd.toNat ≤ s.cfg.nw * s.cfg.W - 1 →
      ∃ T : s.Reg, T.len = s.port.opnd.toNat ∧ (∀ k (hk : k < s.cfg.nw), T.w[k] = 0#s.cfg.W) ∧
        exec (.zeros d) s = .next { s with m := s.m.setIfInBounds d.toNat T, status := 0#4 }) ∧
    (s.cfg.nw * s.cfg.W - 1 < s.port.opnd.toNat → exec (.zeros d) s = .next { s with status := 2#4 })

/-- 41_construction.md R121, ONES: the all-ones mask of length `size` with zero padding, word by word and as `mk`,
after which CNT answers `size`; or CAPACITY_EXCEEDED with nothing else changed. -/
def Obligations.OnesConstructsOnesMask : Prop :=
  ∀ (d : RegField) (s : State), d.toNat < s.cfg.nm →
    encode (.ones d) = cmdWord 0x02 d 0#4 0#4 false ∧
    (s.port.opnd.toNat ≤ s.cfg.nw * s.cfg.W - 1 →
      ∃ T : s.Reg, T.len = s.port.opnd.toNat ∧
        (∀ k (hk : k < s.cfg.nw), T.w[k] =
          if k < T.len / s.cfg.W then BitVec.allOnes s.cfg.W
          else if k = T.len / s.cfg.W then BitVec.ofNat s.cfg.W (2 ^ (T.len % s.cfg.W) - 1) else 0#s.cfg.W) ∧
        T = MaskReg.ofBits _ _ s.port.opnd.toNat (fun _ => true) ∧
        exec (.ones d) s = .next { s with m := s.m.setIfInBounds d.toNat T, status := 0#4 } ∧
        exec (.cnt d) { s with m := s.m.setIfInBounds d.toNat T, status := 0#4 } =
          .next { s with m := s.m.setIfInBounds d.toNat T, status := 0#4, res := s.port.opnd }) ∧
    (s.cfg.nw * s.cfg.W - 1 < s.port.opnd.toNat → exec (.ones d) s = .next { s with status := 2#4 })

/-- 41_construction.md R122, SETALL: every logical bit becomes `v`, the length stays, the padding is zero. -/
def Obligations.SetallFillsWithOneValue : Prop :=
  ∀ (d : RegField) (v : Bool) (s : State), d.toNat < s.cfg.nm →
    encode (.setall d v) = cmdWord 0x03 d 0#4 0#4 v ∧
    ∃ T : s.Reg, T.len = (s.reg d).len ∧
      (∀ k (hk : k < s.cfg.nw), T.w[k] =
        if v = false then 0#s.cfg.W
        else if k < T.len / s.cfg.W then BitVec.allOnes s.cfg.W
        else if k = T.len / s.cfg.W then BitVec.ofNat s.cfg.W (2 ^ (T.len % s.cfg.W) - 1) else 0#s.cfg.W) ∧
      T = MaskReg.ofBits _ _ (s.reg d).len (fun _ => v) ∧
      exec (.setall d v) s = .next { s with m := s.m.setIfInBounds d.toNat T, status := 0#4 }

/-- 41_construction.md R123, MOV: the length and the words of `M[a]`; `d = a` changes nothing but `STATUS`; EQ then
answers 1. -/
def Obligations.MovCopiesRegister : Prop :=
  ∀ (d a : RegField) (s : State), d.toNat < s.cfg.nm → a.toNat < s.cfg.nm →
    encode (.mov d a) = cmdWord 0x0B d a 0#4 false ∧
    exec (.mov d a) s = .next { s with m := s.m.setIfInBounds d.toNat (s.reg a), status := 0#4 } ∧
    exec (.mov d d) s = .next { s with status := 0#4 } ∧
    exec (.eq d a) { s with m := s.m.setIfInBounds d.toNat (s.reg a), status := 0#4 } =
      .next { s with m := s.m.setIfInBounds d.toNat (s.reg a), status := 0#4, res := 1#64 }

/-! ## Single bits -/

/-- 42_bit_access.md R140, SET: bit `i` becomes `v` by OR or AND at word `i / W`, every other word and bit and the
length stay; an index at or above `len` raises INDEX_OUT_OF_BOUNDS and changes nothing else. The register's length is
within `L_MAX` (10_state.md R31). -/
def Obligations.SetWritesOneBit : Prop :=
  ∀ (d : RegField) (v : Bool) (s : State), d.toNat < s.cfg.nm → (s.reg d).Bounded →
    encode (.set d v) = cmdWord 0x04 d 0#4 0#4 v ∧
    (s.port.opnd.toNat < (s.reg d).len →
      ∃ T : s.Reg, T.len = (s.reg d).len ∧
        (∀ k (hk : k < s.cfg.nw), T.w[k] =
          if k = s.port.opnd.toNat / s.cfg.W then
            (if v then (s.reg d).w[k] ||| (1#s.cfg.W <<< (s.port.opnd.toNat % s.cfg.W))
             else (s.reg d).w[k] &&& ~~~(1#s.cfg.W <<< (s.port.opnd.toNat % s.cfg.W)))
          else (s.reg d).w[k]) ∧
        (∀ j, T.bit j = if j = s.port.opnd.toNat then v else (s.reg d).bit j) ∧
        exec (.set d v) s = .next { s with m := s.m.setIfInBounds d.toNat T, status := 0#4 }) ∧
    ((s.reg d).len ≤ s.port.opnd.toNat → exec (.set d v) s = .next { s with status := 1#4 })

/-- 42_bit_access.md R141, GET: `RES` is logical bit `i`; an index at or above `len` raises INDEX_OUT_OF_BOUNDS and
leaves `RES`. -/
def Obligations.GetReadsOneBit : Prop :=
  ∀ (a : RegField) (s : State), a.toNat < s.cfg.nm →
    encode (.get a) = cmdWord 0x05 0#4 a 0#4 false ∧
    (s.port.opnd.toNat < (s.reg a).len →
      exec (.get a) s =
        .next { s with res := if (s.reg a).bit s.port.opnd.toNat then 1#64 else 0#64, status := 0#4 }) ∧
    ((s.reg a).len ≤ s.port.opnd.toNat → exec (.get a) s = .next { s with status := 1#4 })

/-! ## Aggregate queries -/

/-- 43_aggregate.md R160, LEN: `RES` is the logical length, which fits and is at most `L_MAX`. -/
def Obligations.LenReadsLength : Prop :=
  ∀ (a : RegField) (s : State), a.toNat < s.cfg.nm → (s.reg a).Bounded →
    encode (.len a) = cmdWord 0x06 0#4 a 0#4 false ∧
    ∃ v : BitVec 64, v.toNat = (s.reg a).len ∧ v.toNat ≤ s.cfg.nw * s.cfg.W - 1 ∧
      exec (.len a) s = .next { s with res := v, status := 0#4 }

/-- 43_aggregate.md R161, NWD: `RES` is `len / W + 1`, at least 1 and at most `NW`. -/
def Obligations.NwdReadsWordCount : Prop :=
  ∀ (a : RegField) (s : State), a.toNat < s.cfg.nm → (s.reg a).Bounded →
    encode (.nwd a) = cmdWord 0x07 0#4 a 0#4 false ∧
    ∃ v : BitVec 64, v.toNat = (s.reg a).len / s.cfg.W + 1 ∧ 1 ≤ v.toNat ∧ v.toNat ≤ s.cfg.nw ∧
      exec (.nwd a) s = .next { s with res := v, status := 0#4 }

/-- 43_aggregate.md R162, CNT: `RES` is the sum of the population counts of the allocated words, which is the number
of set logical bits, at most `len`, and the same over all `NW` words. -/
def Obligations.CntCountsSetBits : Prop :=
  ∀ (a : RegField) (s : State), a.toNat < s.cfg.nm → (s.reg a).Inv →
    encode (.cnt a) = cmdWord 0x08 0#4 a 0#4 false ∧
    ∃ v : BitVec 64,
      v.toNat = ((List.range ((s.reg a).len / s.cfg.W + 1)).map fun k => popcount ((s.reg a).phys k)).sum ∧
      v.toNat = ((List.range s.cfg.nw).map fun k => popcount ((s.reg a).phys k)).sum ∧
      v.toNat = (List.range (s.reg a).len).countP (s.reg a).bit ∧ v.toNat ≤ (s.reg a).len ∧
      exec (.cnt a) s = .next { s with res := v, status := 0#4 }

/-- 43_aggregate.md R163, TZC: `RES` is the least member of the set bits' indices together with `len`. -/
def Obligations.TzcFindsLowestSetBit : Prop :=
  ∀ (a : RegField) (s : State), a.toNat < s.cfg.nm → (s.reg a).Inv →
    encode (.tzc a) = cmdWord 0x09 0#4 a 0#4 false ∧
    ∃ v : BitVec 64,
      v.toNat ≤ (s.reg a).len ∧ (∀ j < v.toNat, (s.reg a).bit j = false) ∧
      (v.toNat < (s.reg a).len → (s.reg a).bit v.toNat = true) ∧
      exec (.tzc a) s = .next { s with res := v, status := 0#4 }

/-- 43_aggregate.md R164, CFG: `RES[15:0] = W`, `RES[47:16] = NW`, `RES[55:48] = NM`, `RES[63:56] = 0`. -/
def Obligations.CfgReadsBuildParameters : Prop :=
  ∀ s : State,
    encode .cfg = cmdWord 0x0C 0#4 0#4 0#4 false ∧
    ∃ v : BitVec 64,
      v = (BitVec.ofNat 64 s.cfg.W ||| BitVec.ofNat 64 s.cfg.nw <<< 16 ||| BitVec.ofNat 64 s.cfg.nm <<< 48) ∧
      (v.extractLsb' 0 16).toNat = s.cfg.W ∧ (v.extractLsb' 16 32).toNat = s.cfg.nw ∧
      (v.extractLsb' 48 8).toNat = s.cfg.nm ∧ v.extractLsb' 56 8 = 0#8 ∧
      exec .cfg s = .next { s with res := v, status := 0#4 }

/-! ## The boolean operator tree -/

/-- 44_boolean.md R180, R181, R182, the non-mutating forms word by word: the length is the maximum, the allocated
words combine the two lookups, the words above are `ZERO`; one register with itself gives a copy (AND, OR) or zeros
(XOR), and XOR with a longer `zeros(n)` extends the length and keeps the bits. -/
def Obligations.BinaryOperatorsWordByWord : Prop :=
  ∀ (d a b : RegField) (s : State), d.toNat < s.cfg.nm → a.toNat < s.cfg.nm → b.toNat < s.cfg.nm →
    (encode (.and d a b) = cmdWord 0x10 d a b false ∧ ∃ T : s.Reg,
      T.len = max (s.reg a).len (s.reg b).len ∧
      (∀ k (hk : k < s.cfg.nw), T.w[k] =
        if k < T.len / s.cfg.W + 1 then (s.reg a).word k &&& (s.reg b).word k else 0#s.cfg.W) ∧
      (a = b → (s.reg a).PadZero → T = s.reg a) ∧
      exec (.and d a b) s = .next { s with m := s.m.setIfInBounds d.toNat T, status := 0#4 }) ∧
    (encode (.or d a b) = cmdWord 0x11 d a b false ∧ ∃ T : s.Reg,
      T.len = max (s.reg a).len (s.reg b).len ∧
      (∀ k (hk : k < s.cfg.nw), T.w[k] =
        if k < T.len / s.cfg.W + 1 then (s.reg a).word k ||| (s.reg b).word k else 0#s.cfg.W) ∧
      (a = b → (s.reg a).PadZero → T = s.reg a) ∧
      exec (.or d a b) s = .next { s with m := s.m.setIfInBounds d.toNat T, status := 0#4 }) ∧
    (encode (.xor d a b) = cmdWord 0x12 d a b false ∧ ∃ T : s.Reg,
      T.len = max (s.reg a).len (s.reg b).len ∧
      (∀ k (hk : k < s.cfg.nw), T.w[k] =
        if k < T.len / s.cfg.W + 1 then (s.reg a).word k ^^^ (s.reg b).word k else 0#s.cfg.W) ∧
      (a = b → T = MaskReg.ofBits _ _ (s.reg a).len fun _ => false) ∧
      (∀ n, (s.reg a).PadZero → (s.reg a).len ≤ n → s.reg b = MaskReg.ofBits _ _ n (fun _ => false) →
        T = MaskReg.ofBits _ _ n (s.reg a).bit) ∧
      exec (.xor d a b) s = .next { s with m := s.m.setIfInBounds d.toNat T, status := 0#4 })

/-- 44_boolean.md R184, R185, R186, the in-place forms word by word: ANDA keeps the length of `M[d]`, ORA and XORA
grow it to the maximum and equal OR and XOR with `a = d`; `d = b` keeps `M[d]` (ANDA, ORA) or zeroes it (XORA). -/
def Obligations.CompoundOperatorsWordByWord : Prop :=
  ∀ (d b : RegField) (s : State), d.toNat < s.cfg.nm → b.toNat < s.cfg.nm →
    (encode (.anda d b) = cmdWord 0x14 d 0#4 b false ∧ ∃ T : s.Reg,
      T.len = (s.reg d).len ∧
      (∀ k (hk : k < s.cfg.nw), T.w[k] =
        if k < T.len / s.cfg.W + 1 then (s.reg d).w[k] &&& (s.reg b).word k else 0#s.cfg.W) ∧
      (d = b → (s.reg d).PadZero → exec (.anda d b) s = .next { s with status := 0#4 }) ∧
      exec (.anda d b) s = .next { s with m := s.m.setIfInBounds d.toNat T, status := 0#4 }) ∧
    (encode (.ora d b) = cmdWord 0x15 d 0#4 b false ∧ ∃ T : s.Reg,
      T.len = max (s.reg d).len (s.reg b).len ∧
      (∀ k (hk : k < s.cfg.nw), T.w[k] =
        if k < T.len / s.cfg.W + 1 then (s.reg d).word k ||| (s.reg b).word k else 0#s.cfg.W) ∧
      exec (.ora d b) s = exec (.or d d b) s ∧
      (d = b → (s.reg d).PadZero → exec (.ora d b) s = .next { s with status := 0#4 }) ∧
      exec (.ora d b) s = .next { s with m := s.m.setIfInBounds d.toNat T, status := 0#4 }) ∧
    (encode (.xora d b) = cmdWord 0x16 d 0#4 b false ∧ ∃ T : s.Reg,
      T.len = max (s.reg d).len (s.reg b).len ∧
      (∀ k (hk : k < s.cfg.nw), T.w[k] =
        if k < T.len / s.cfg.W + 1 then (s.reg d).word k ^^^ (s.reg b).word k else 0#s.cfg.W) ∧
      exec (.xora d b) s = exec (.xor d d b) s ∧
      (d = b → T = MaskReg.ofBits _ _ (s.reg d).len fun _ => false) ∧
      exec (.xora d b) s = .next { s with m := s.m.setIfInBounds d.toNat T, status := 0#4 })

/-- 44_boolean.md R183, NOT: every allocated word inverted, the tail word masked at the result's own length, the
words above `ZERO`; as bits, `mk(A.len, j -> 1 - bit(A, j))`; twice, the original value. -/
def Obligations.NotInvertsLogicalBits : Prop :=
  ∀ (d a : RegField) (s : State), d.toNat < s.cfg.nm → a.toNat < s.cfg.nm →
    encode (.not d a) = cmdWord 0x13 d a 0#4 false ∧
    ∃ T : s.Reg, T.len = (s.reg a).len ∧
      (∀ k (hk : k < s.cfg.nw), T.w[k] =
        if k < T.len / s.cfg.W then ~~~(s.reg a).w[k]
        else if k = T.len / s.cfg.W then
          ~~~(s.reg a).w[k] &&& BitVec.ofNat s.cfg.W (2 ^ (T.len % s.cfg.W) - 1)
        else 0#s.cfg.W) ∧
      T = MaskReg.ofBits _ _ (s.reg a).len (fun j => !(s.reg a).bit j) ∧
      exec (.not d a) s = .next { s with m := s.m.setIfInBounds d.toNat T, status := 0#4 } ∧
      ((s.reg a).PadZero → exec (.not d d) { s with m := s.m.setIfInBounds d.toNat T, status := 0#4 } =
        .next { s with m := s.m.setIfInBounds d.toNat (s.reg a), status := 0#4 })

/-- 44_boolean.md R187: the bit-level form of every operator, under the invariant of the registers read. -/
def Obligations.BooleanOperatorsBitByBit : Prop :=
  ∀ (d a b : RegField) (s : State), d.toNat < s.cfg.nm → a.toNat < s.cfg.nm → b.toNat < s.cfg.nm → s.Inv →
    exec (.and d a b) s = .next { s with
      m := s.m.setIfInBounds d.toNat (MaskReg.ofBits _ _ (max (s.reg a).len (s.reg b).len)
        fun j => (s.reg a).bit j && (s.reg b).bit j), status := 0#4 } ∧
    exec (.or d a b) s = .next { s with
      m := s.m.setIfInBounds d.toNat (MaskReg.ofBits _ _ (max (s.reg a).len (s.reg b).len)
        fun j => (s.reg a).bit j || (s.reg b).bit j), status := 0#4 } ∧
    exec (.xor d a b) s = .next { s with
      m := s.m.setIfInBounds d.toNat (MaskReg.ofBits _ _ (max (s.reg a).len (s.reg b).len)
        fun j => (s.reg a).bit j ^^ (s.reg b).bit j), status := 0#4 } ∧
    exec (.not d a) s = .next { s with
      m := s.m.setIfInBounds d.toNat (MaskReg.ofBits _ _ (s.reg a).len fun j => !(s.reg a).bit j),
      status := 0#4 } ∧
    exec (.anda d b) s = .next { s with
      m := s.m.setIfInBounds d.toNat (MaskReg.ofBits _ _ (s.reg d).len
        fun j => (s.reg d).bit j && (s.reg b).bit j), status := 0#4 } ∧
    exec (.ora d b) s = .next { s with
      m := s.m.setIfInBounds d.toNat (MaskReg.ofBits _ _ (max (s.reg d).len (s.reg b).len)
        fun j => (s.reg d).bit j || (s.reg b).bit j), status := 0#4 } ∧
    exec (.xora d b) s = .next { s with
      m := s.m.setIfInBounds d.toNat (MaskReg.ofBits _ _ (max (s.reg d).len (s.reg b).len)
        fun j => (s.reg d).bit j ^^ (s.reg b).bit j), status := 0#4 }

/-- 44_boolean.md R188, commutativity for all lengths: swapping the sources gives the same next state. -/
def Obligations.BinaryOperatorsCommute : Prop :=
  ∀ (d a b : RegField) (s : State),
    exec (.and d a b) s = exec (.and d b a) s ∧ exec (.or d a b) s = exec (.or d b a) s ∧
    exec (.xor d a b) s = exec (.xor d b a) s

/-- 44_boolean.md R188, associativity for all lengths: `(a op b) op c` and `a op (b op c)`, computed through a
destination that is neither `a` nor `c`, leave the same value in it. -/
def Obligations.BinaryOperatorsAssociate : Prop :=
  ∀ (op : RegField → RegField → RegField → Instr), op = .and ∨ op = .or ∨ op = .xor →
    ∀ (d a b c : RegField) (s : State),
      d.toNat < s.cfg.nm → a.toNat < s.cfg.nm → b.toNat < s.cfg.nm → c.toNat < s.cfg.nm → d ≠ a → d ≠ c → s.Inv →
      ∃ T U V : s.Reg,
        exec (op d a b) s = .next { s with m := s.m.setIfInBounds d.toNat T, status := 0#4 } ∧
        exec (op d d c) { s with m := s.m.setIfInBounds d.toNat T, status := 0#4 } =
          .next { s with m := s.m.setIfInBounds d.toNat V, status := 0#4 } ∧
        exec (op d b c) s = .next { s with m := s.m.setIfInBounds d.toNat U, status := 0#4 } ∧
        exec (op d a d) { s with m := s.m.setIfInBounds d.toNat U, status := 0#4 } =
          .next { s with m := s.m.setIfInBounds d.toNat V, status := 0#4 }

/-- 44_boolean.md R188, the identities: OR with `zeros(n)` is the identity exactly when `n <= len` and otherwise only
lengthens; AND with `ones(len)` is the identity; XOR with itself is `zeros(len)`; NOT twice is the identity. -/
def Obligations.BooleanIdentityLaws : Prop :=
  ∀ (d a b : RegField) (s : State), d.toNat < s.cfg.nm → a.toNat < s.cfg.nm → b.toNat < s.cfg.nm → s.Inv →
    (∀ n, s.reg b = MaskReg.ofBits _ _ n (fun _ => false) → ∃ T : s.Reg,
      exec (.or d a b) s = .next { s with m := s.m.setIfInBounds d.toNat T, status := 0#4 } ∧
      (T = s.reg a ↔ n ≤ (s.reg a).len) ∧
      ((s.reg a).len < n → T = MaskReg.ofBits _ _ n (s.reg a).bit)) ∧
    (s.reg b = MaskReg.ofBits _ _ (s.reg a).len (fun _ => true) →
      exec (.and d a b) s = .next { s with m := s.m.setIfInBounds d.toNat (s.reg a), status := 0#4 }) ∧
    exec (.xor d a a) s = .next { s with
      m := s.m.setIfInBounds d.toNat (MaskReg.ofBits _ _ (s.reg a).len fun _ => false), status := 0#4 } ∧
    (∃ T : s.Reg, exec (.not d a) s = .next { s with m := s.m.setIfInBounds d.toNat T, status := 0#4 } ∧
      exec (.not d d) { s with m := s.m.setIfInBounds d.toNat T, status := 0#4 } =
        .next { s with m := s.m.setIfInBounds d.toNat (s.reg a), status := 0#4 })

/-! ## The barrel shifter -/

/-- 45_shift.md R210, SHR: the word formula with the guarded cross-word term; under the padding rule the value is
`mk(A.len, j -> bit(A, j + n))`, the source itself at `n = 0` and `zeros(A.len)` at `n >= A.len`. -/
def Obligations.ShrShiftsTowardLowIndices : Prop :=
  ∀ (d a : RegField) (s : State), d.toNat < s.cfg.nm → a.toNat < s.cfg.nm →
    encode (.shr d a) = cmdWord 0x20 d a 0#4 false ∧
    ∃ T : s.Reg, T.len = (s.reg a).len ∧
      (∀ k (hk : k < s.cfg.nw), T.w[k] =
        shrW ((s.reg a).word (k + s.port.opnd.toNat / s.cfg.W)) (s.port.opnd.toNat % s.cfg.W) |||
        (if s.port.opnd.toNat % s.cfg.W = 0 then 0#s.cfg.W
         else shlW ((s.reg a).word (k + s.port.opnd.toNat / s.cfg.W + 1))
          (s.cfg.W - s.port.opnd.toNat % s.cfg.W))) ∧
      ((s.reg a).PadZero →
        T = MaskReg.ofBits _ _ (s.reg a).len (fun j => (s.reg a).bit (j + s.port.opnd.toNat)) ∧
        (s.port.opnd = 0#64 → T = s.reg a) ∧
        ((s.reg a).len ≤ s.port.opnd.toNat → T = MaskReg.ofBits _ _ (s.reg a).len fun _ => false)) ∧
      exec (.shr d a) s = .next { s with m := s.m.setIfInBounds d.toNat T, status := 0#4 }

/-- 45_shift.md R211, SHL: the word formula with the tail correction; under the padding rule the value is
`mk(A.len, j -> (j >= n) ? bit(A, j - n) : 0)`, the source itself at `n = 0` and `zeros(A.len)` at `n >= A.len`. -/
def Obligations.ShlShiftsTowardHighIndices : Prop :=
  ∀ (d a : RegField) (s : State), d.toNat < s.cfg.nm → a.toNat < s.cfg.nm →
    encode (.shl d a) = cmdWord 0x21 d a 0#4 false ∧
    ∃ T : s.Reg, T.len = (s.reg a).len ∧
      (∀ k (hk : k < s.cfg.nw), T.w[k] =
        if (s.reg a).len / s.cfg.W < k then 0#s.cfg.W
        else (shlW (if s.port.opnd.toNat / s.cfg.W ≤ k
            then (s.reg a).word (k - s.port.opnd.toNat / s.cfg.W) else 0#s.cfg.W)
            (s.port.opnd.toNat % s.cfg.W) |||
          (if s.port.opnd.toNat % s.cfg.W = 0 ∨ k < s.port.opnd.toNat / s.cfg.W + 1 then 0#s.cfg.W
           else shrW ((s.reg a).word (k - s.port.opnd.toNat / s.cfg.W - 1))
            (s.cfg.W - s.port.opnd.toNat % s.cfg.W))) &&&
          (if k = (s.reg a).len / s.cfg.W then BitVec.ofNat s.cfg.W (2 ^ ((s.reg a).len % s.cfg.W) - 1)
           else BitVec.allOnes s.cfg.W)) ∧
      ((s.reg a).PadZero →
        T = MaskReg.ofBits _ _ (s.reg a).len
          (fun j => decide (s.port.opnd.toNat ≤ j) && (s.reg a).bit (j - s.port.opnd.toNat)) ∧
        (s.port.opnd = 0#64 → T = s.reg a) ∧
        ((s.reg a).len ≤ s.port.opnd.toNat → T = MaskReg.ofBits _ _ (s.reg a).len fun _ => false)) ∧
      exec (.shl d a) s = .next { s with m := s.m.setIfInBounds d.toNat T, status := 0#4 }

/-- 45_shift.md R212, R213: SHRA and SHLA are SHR and SHL with `a = d`, with the same bits. -/
def Obligations.InPlaceShiftsEqualTheirSources : Prop :=
  ∀ (d : RegField) (s : State), d.toNat < s.cfg.nm →
    encode (.shra d) = cmdWord 0x22 d 0#4 0#4 false ∧ encode (.shla d) = cmdWord 0x23 d 0#4 0#4 false ∧
    exec (.shra d) s = exec (.shr d d) s ∧ exec (.shla d) s = exec (.shl d d) s ∧
    ((s.reg d).PadZero →
      exec (.shra d) s = .next { s with
        m := s.m.setIfInBounds d.toNat (MaskReg.ofBits _ _ (s.reg d).len
          fun j => (s.reg d).bit (j + s.port.opnd.toNat)), status := 0#4 } ∧
      exec (.shla d) s = .next { s with
        m := s.m.setIfInBounds d.toNat (MaskReg.ofBits _ _ (s.reg d).len
          fun j => decide (s.port.opnd.toNat ≤ j) && (s.reg d).bit (j - s.port.opnd.toNat)), status := 0#4 })

/-- 45_shift.md R214: shifting one way and back by the same amount clears exactly the shifted-out region. -/
def Obligations.ShiftThereAndBack : Prop :=
  ∀ (d a : RegField) (s : State), d.toNat < s.cfg.nm → a.toNat < s.cfg.nm → s.Inv →
    (∃ T : s.Reg,
      exec (.shl d a) s = .next { s with m := s.m.setIfInBounds d.toNat T, status := 0#4 } ∧
      exec (.shr d d) { s with m := s.m.setIfInBounds d.toNat T, status := 0#4 } = .next { s with
        m := s.m.setIfInBounds d.toNat (MaskReg.ofBits _ _ (s.reg a).len
          fun j => decide (j + s.port.opnd.toNat < (s.reg a).len) && (s.reg a).bit j), status := 0#4 }) ∧
    (∃ T : s.Reg,
      exec (.shr d a) s = .next { s with m := s.m.setIfInBounds d.toNat T, status := 0#4 } ∧
      exec (.shl d d) { s with m := s.m.setIfInBounds d.toNat T, status := 0#4 } = .next { s with
        m := s.m.setIfInBounds d.toNat (MaskReg.ofBits _ _ (s.reg a).len
          fun j => decide (s.port.opnd.toNat ≤ j) && (s.reg a).bit j), status := 0#4 })

/-- 45_shift.md R214: two shifts the same way add their amounts, exactly; where the sum does not fit `OPND` the
result is `zeros(L)`. `T` is the value the single command leaves. -/
def Obligations.ShiftAmountsAdd : Prop :=
  ∀ (d a : RegField) (s : State) (m n : BitVec 64), d.toNat < s.cfg.nm → a.toNat < s.cfg.nm → s.Inv →
    (∃ T U : s.Reg,
      exec (.shr d a) (s.withOpnd m) =
        .next { s.withOpnd m with m := s.m.setIfInBounds d.toNat U, status := 0#4 } ∧
      exec (.shr d d) { s.withOpnd n with m := s.m.setIfInBounds d.toNat U, status := 0#4 } =
        .next { s.withOpnd n with m := s.m.setIfInBounds d.toNat T, status := 0#4 } ∧
      (m.toNat + n.toNat < 2 ^ 64 → exec (.shr d a) (s.withOpnd (m + n)) =
        .next { s.withOpnd (m + n) with m := s.m.setIfInBounds d.toNat T, status := 0#4 }) ∧
      (2 ^ 64 ≤ m.toNat + n.toNat → T = MaskReg.ofBits _ _ (s.reg a).len fun _ => false)) ∧
    (∃ T U : s.Reg,
      exec (.shl d a) (s.withOpnd m) =
        .next { s.withOpnd m with m := s.m.setIfInBounds d.toNat U, status := 0#4 } ∧
      exec (.shl d d) { s.withOpnd n with m := s.m.setIfInBounds d.toNat U, status := 0#4 } =
        .next { s.withOpnd n with m := s.m.setIfInBounds d.toNat T, status := 0#4 } ∧
      (m.toNat + n.toNat < 2 ^ 64 → exec (.shl d a) (s.withOpnd (m + n)) =
        .next { s.withOpnd (m + n) with m := s.m.setIfInBounds d.toNat T, status := 0#4 }) ∧
      (2 ^ 64 ≤ m.toNat + n.toNat → T = MaskReg.ofBits _ _ (s.reg a).len fun _ => false))

/-! ## Equality and the word port -/

/-- 46_equality.md R240, EQ: `RES` is 1 exactly when the lengths and every allocated word agree; `a = b` gives 1;
under the invariant, exactly when the registers are equal. -/
def Obligations.EqComparesLengthAndWords : Prop :=
  ∀ (a b : RegField) (s : State), a.toNat < s.cfg.nm → b.toNat < s.cfg.nm →
    encode (.eq a b) = cmdWord 0x0A 0#4 a b false ∧
    ∃ v : BitVec 64, exec (.eq a b) s = .next { s with res := v, status := 0#4 } ∧
      (v = 1#64 ∨ v = 0#64) ∧
      (v = 1#64 ↔ (s.reg a).len = (s.reg b).len ∧
        ∀ k, k < (s.reg a).len / s.cfg.W + 1 → (s.reg a).phys k = (s.reg b).phys k) ∧
      (a = b → v = 1#64) ∧
      (s.Inv → (v = 1#64 ↔ s.reg a = s.reg b))

/-- 47_word_port.md R250, RDW: `RWD` is allocated word `k`, its padding bits 0; an index outside the allocated words
raises INDEX_OUT_OF_BOUNDS and leaves `RWD`. -/
def Obligations.RdwReadsAllocatedWord : Prop :=
  ∀ (a : RegField) (s : State), a.toNat < s.cfg.nm → (s.reg a).Inv →
    encode (.rdw a) = cmdWord 0x30 0#4 a 0#4 false ∧
    (s.port.opnd.toNat < (s.reg a).len / s.cfg.W + 1 →
      ∃ hk : s.port.opnd.toNat < s.cfg.nw,
        exec (.rdw a) s = .next { s with rwd := (s.reg a).w[s.port.opnd.toNat], status := 0#4 } ∧
        ∀ b < s.cfg.W, (s.reg a).len ≤ s.port.opnd.toNat * s.cfg.W + b →
          ((s.reg a).w[s.port.opnd.toNat]).getLsbD b = false) ∧
    ((s.reg a).len / s.cfg.W + 1 ≤ s.port.opnd.toNat → exec (.rdw a) s = .next { s with status := 1#4 })

/-- 47_word_port.md R251, WRW: allocated word `k` becomes `data`, masked in the tail word; the length and every other
word stay; an index outside the allocated words raises INDEX_OUT_OF_BOUNDS and changes nothing else. -/
def Obligations.WrwWritesAllocatedWord : Prop :=
  ∀ (d : RegField) (s : State), d.toNat < s.cfg.nm → (s.reg d).Bounded →
    encode (.wrw d) = cmdWord 0x31 d 0#4 0#4 false ∧
    (s.port.opnd.toNat < (s.reg d).len / s.cfg.W + 1 →
      s.port.opnd.toNat < s.cfg.nw ∧
      ∃ T : s.Reg, T.len = (s.reg d).len ∧
        (∀ k (hk : k < s.cfg.nw), T.w[k] =
          if k = s.port.opnd.toNat then
            (if k = (s.reg d).len / s.cfg.W then
              s.port.wdata &&& BitVec.ofNat s.cfg.W (2 ^ ((s.reg d).len % s.cfg.W) - 1)
             else s.port.wdata)
          else (s.reg d).w[k]) ∧
        ((s.reg d).PadZero → T.PadZero) ∧
        exec (.wrw d) s = .next { s with m := s.m.setIfInBounds d.toNat T, status := 0#4 }) ∧
    ((s.reg d).len / s.cfg.W + 1 ≤ s.port.opnd.toNat → exec (.wrw d) s = .next { s with status := 1#4 })

/-- 47_word_port.md R252: LEN and RDW read out the length and the allocated words of a register, and the program
ZEROS, WRW 0, WRW 1, … with them makes `M[d]` equal to it, in the state any earlier program left. That a program is
the host's list is the model's choice (notes/assumptions/3.md); what the ports hold at the end is left open. -/
def Obligations.WordPortRoundTrip : Prop :=
  ∀ (a d : RegField) (s : State), a.toNat < s.cfg.nm → d.toNat < s.cfg.nm → s.Inv →
    exec (.len a) s = .next { s with res := BitVec.ofNat 64 (s.reg a).len, status := 0#4 } ∧
    (∀ k, k < (s.reg a).len / s.cfg.W + 1 → exec (.rdw a) (s.withOpnd (BitVec.ofNat 64 k)) =
      .next { s.withOpnd (BitVec.ofNat 64 k) with rwd := (s.reg a).phys k, status := 0#4 }) ∧
    ∀ prog : List (HostEvent s.cfg.W),
      prog = .issue ⟨cmdWord 0x01 d 0#4 0#4 false, BitVec.ofNat 64 (s.reg a).len, 0#s.cfg.W⟩ ::
        (List.range ((s.reg a).len / s.cfg.W + 1)).map (fun k =>
          .issue ⟨cmdWord 0x31 d 0#4 0#4 false, BitVec.ofNat 64 k, (s.reg a).phys k⟩) →
      ∃ p, Sys2Proof.core.run ((s.reg a).len / s.cfg.W + 2) { s with script := prog, pos := 0 } =
        .next { s with
          m := s.m.setIfInBounds d.toNat (s.reg a), status := 0#4, port := p, script := prog,
          pos := (s.reg a).len / s.cfg.W + 2 }
end

