-- ==== Sys2Proof/Laws/Decode.lean ====
section
/-! SUPPORT. The fields of a packed command word, the word rebuilt from its fields, and the decoder split into its
two stages. -/

namespace Sys2Proof

/-! ## Fields of a packed word -/

section Pack

variable (op : BitVec 8) (rd ra rb : RegField) (v : Bool)

@[simp] theorem op_packCmd : Cmd.op (packCmd op rd ra rb v) = op := by
  apply BitVec.eq_of_getLsbD_eq
  intro i hi
  simp only [Cmd.op, packCmd, BitVec.getLsbD_extractLsb', BitVec.getLsbD_append]
  rw [if_pos (by omega)]; simp [hi]

@[simp] theorem rd_packCmd : Cmd.rd (packCmd op rd ra rb v) = rd := by
  apply BitVec.eq_of_getLsbD_eq
  intro i hi
  simp only [Cmd.rd, packCmd, BitVec.getLsbD_extractLsb', BitVec.getLsbD_append]
  rw [if_neg (by omega), if_pos (by omega)]; simp [hi]

@[simp] theorem ra_packCmd : Cmd.ra (packCmd op rd ra rb v) = ra := by
  apply BitVec.eq_of_getLsbD_eq
  intro i hi
  simp only [Cmd.ra, packCmd, BitVec.getLsbD_extractLsb', BitVec.getLsbD_append]
  rw [if_neg (by omega), if_neg (by omega), if_pos (by omega), show 12 + i - 8 - 4 = i by omega]; simp [hi]

@[simp] theorem rb_packCmd : Cmd.rb (packCmd op rd ra rb v) = rb := by
  apply BitVec.eq_of_getLsbD_eq
  intro i hi
  simp only [Cmd.rb, packCmd, BitVec.getLsbD_extractLsb', BitVec.getLsbD_append]
  rw [if_neg (by omega), if_neg (by omega), if_neg (by omega), if_pos (by omega),
    show 16 + i - 8 - 4 - 4 = i by omega]; simp [hi]

@[simp] theorem v_packCmd : Cmd.v (packCmd op rd ra rb v) = v := by
  simp only [Cmd.v, packCmd, BitVec.getLsbD_append]
  simp

@[simp] theorem rsv_packCmd : Cmd.rsv (packCmd op rd ra rb v) = 0#11 := by
  apply BitVec.eq_of_getLsbD_eq
  intro i hi
  simp only [Cmd.rsv, packCmd, BitVec.getLsbD_extractLsb', BitVec.getLsbD_append]
  rw [if_neg (by omega), if_neg (by omega), if_neg (by omega), if_neg (by omega), if_neg (by omega)]; simp

end Pack

/-- A word whose reserved bits are zero is the word of its own fields (R91). -/
theorem packCmd_fields {w : BitVec 32} (h : Cmd.rsv w = 0#11) :
    packCmd (Cmd.op w) (Cmd.rd w) (Cmd.ra w) (Cmd.rb w) (Cmd.v w) = w := by
  have hr : ∀ i, 21 ≤ i → i < 32 → w.getLsbD i = false := by
    intro i h1 h2
    have := congrArg (fun x : BitVec 11 => x.getLsbD (i - 21)) h
    simpa [Cmd.rsv, show 21 + (i - 21) = i by omega, show i - 21 < 11 by omega] using this
  apply BitVec.eq_of_getLsbD_eq
  intro i hi
  simp only [packCmd, Cmd.op, Cmd.rd, Cmd.ra, Cmd.rb, Cmd.v, BitVec.getLsbD_append, BitVec.getLsbD_extractLsb',
    BitVec.getLsbD_ofBool]
  split
  · simp [*]
  · split
    · simp [show i - 8 < 4 by omega, show 8 + (i - 8) = i by omega]
    · split
      · simp [show i - 8 - 4 < 4 by omega, show 12 + (i - 8 - 4) = i by omega]
      · split
        · simp [show i - 8 - 4 - 4 < 4 by omega, show 16 + (i - 8 - 4 - 4) = i by omega]
        · split
          · next h20 => simp [show i = 20 by omega]
          · simp [hr i (by omega) hi]

/-! ## Fields as numbers -/

theorem op_toNat (w : BitVec 32) : (Cmd.op w).toNat = w.toNat % 256 := by
  simp [Cmd.op, BitVec.extractLsb'_toNat]

theorem rd_toNat (w : BitVec 32) : (Cmd.rd w).toNat = w.toNat / 2 ^ 8 % 16 := by
  simp [Cmd.rd, BitVec.extractLsb'_toNat, Nat.shiftRight_eq_div_pow]

theorem ra_toNat (w : BitVec 32) : (Cmd.ra w).toNat = w.toNat / 2 ^ 12 % 16 := by
  simp [Cmd.ra, BitVec.extractLsb'_toNat, Nat.shiftRight_eq_div_pow]

theorem rb_toNat (w : BitVec 32) : (Cmd.rb w).toNat = w.toNat / 2 ^ 16 % 16 := by
  simp [Cmd.rb, BitVec.extractLsb'_toNat, Nat.shiftRight_eq_div_pow]

theorem v_eq (w : BitVec 32) : Cmd.v w = decide (w.toNat / 2 ^ 20 % 2 = 1) := by
  simp only [Cmd.v, BitVec.getLsbD, Nat.testBit_eq_decide_div_mod_eq]

theorem rsv_eq_zero_iff (w : BitVec 32) : Cmd.rsv w = 0#11 ↔ w.toNat / 2 ^ 21 = 0 := by
  have h := w.isLt
  rw [← BitVec.toNat_inj]
  simp only [Cmd.rsv, BitVec.extractLsb'_toNat, Nat.shiftRight_eq_div_pow, BitVec.toNat_ofNat]
  omega

/-- The packed word is the one R91 spells with shifts. -/
theorem packCmd_eq_cmdWord (op : BitVec 8) (rd ra rb : RegField) (v : Bool) :
    packCmd op rd ra rb v = cmdWord op.toNat rd ra rb v := by
  apply BitVec.eq_of_getLsbD_eq
  intro i hi
  have hop : (BitVec.ofNat 32 op.toNat).getLsbD i = op.getLsbD i := by
    rw [BitVec.getLsbD_ofNat, decide_eq_true hi, Bool.true_and]; rfl
  simp only [packCmd, cmdWord, BitVec.getLsbD_append, BitVec.getLsbD_or, BitVec.getLsbD_shiftLeft,
    BitVec.getLsbD_setWidth, hop, BitVec.getLsbD_ofBool]
  have ho : 8 ≤ i → op.getLsbD i = false := fun h => BitVec.getLsbD_of_ge op i h
  have hd : ∀ n, 4 ≤ n → rd.getLsbD n = false := fun n h => BitVec.getLsbD_of_ge rd n h
  have ha : ∀ n, 4 ≤ n → ra.getLsbD n = false := fun n h => BitVec.getLsbD_of_ge ra n h
  have hb : ∀ n, 4 ≤ n → rb.getLsbD n = false := fun n h => BitVec.getLsbD_of_ge rb n h
  split
  · next h => simp [h, show i < 12 by omega, show i < 16 by omega, show i < 20 by omega]
  · next h8 =>
    rw [ho (by omega)]
    split
    · next h => simp [hi, show ¬i < 8 by omega, show i < 12 by omega, show i < 16 by omega, show i < 20 by omega,
        show i - 8 < 32 by omega]
    · next h12 =>
      rw [hd (i - 8) (by omega)]
      split
      · next h => simp [hi, show ¬i < 12 by omega, show i < 16 by omega, show i < 20 by omega,
          show i - 12 < 32 by omega, show i - 8 - 4 = i - 12 by omega]
      · next h16 =>
        rw [ha (i - 12) (by omega)]
        split
        · next h => simp [hi, show ¬i < 16 by omega, show i < 20 by omega, show i - 16 < 32 by omega,
            show i - 8 - 4 - 4 = i - 16 by omega]
        · next h20 =>
          rw [hb (i - 16) (by omega)]
          split
          · next h => simp [show i = 20 by omega]
          · next h21 => simp [show ¬i - 20 = 0 by omega]

/-! ## The two stages of the decoder -/

/-- What an accepted word passed: zero reserved bits, the opcode map with its format check, and the register
check (R97). -/
theorem decode_eq_ok_iff (nm : Nat) (w : BitVec 32) (i : Instr) :
    decode nm w = .ok i ↔ Cmd.rsv w = 0#11 ∧ decodeOpcode w = .ok i ∧ i.WellFormed nm := by
  unfold decode
  by_cases hr : Cmd.rsv w = 0#11
  · rw [if_pos hr]
    cases hd : decodeOpcode w with
    | error e => simp
    | ok j =>
      simp only [checkRegs]
      split
      · next hw =>
        constructor
        · intro h; cases h; exact ⟨hr, rfl, hw⟩
        · rintro ⟨-, h, -⟩; cases h; rfl
      · next hw =>
        constructor
        · intro h; cases h
        · rintro ⟨-, h, h'⟩; cases h; exact absurd h' hw
  · rw [if_neg hr]; simp [hr]

/-- The format check, by its result. -/
theorem withFormat_eq_ok_iff (f : Format) (w : BitVec 32) (i j : Instr) :
    Cmd.withFormat f w i = .ok j ↔ Cmd.unusedZero f w = true ∧ i = j := by
  unfold Cmd.withFormat
  split <;> simp [*]

/-- A word either decodes or is rejected by name: the decoder is total (R97). -/
theorem decode_ok_or_error (nm : Nat) (w : BitVec 32) :
    (∃ i, decode nm w = .ok i) ∨ ∃ e, decode nm w = .error e := by
  cases decode nm w with
  | ok i => exact .inl ⟨i, rfl⟩
  | error e => exact .inr ⟨e, rfl⟩

/-- An opcode value stands in one row of the map only (R98). -/
theorem opcodeMap_format_unique {x : Nat} {f g : Format} (hf : (x, f) ∈ opcodeMap) (hg : (x, g) ∈ opcodeMap) :
    f = g := by
  have h : ∀ r ∈ opcodeMap, ∀ r' ∈ opcodeMap, r.1 = r'.1 → r.2 = r'.2 := by decide
  exact h _ hf _ hg rfl

/-- A command named by the fields of `w` in format `f`: its opcode, its registers and its own word. -/
structure NamesFields (w : BitVec 32) (f : Format) (i : Instr) : Prop where
  format : i.format = f
  opcode : i.opcode = Cmd.op w
  inMap : ((Cmd.op w).toNat, f) ∈ opcodeMap
  regs : i.regs = (if f.usesRD then [Cmd.rd w] else []) ++ (if f.usesRA then [Cmd.ra w] else []) ++
    (if f.usesRB then [Cmd.rb w] else [])
  word : encode i = packCmd (Cmd.op w) (if f.usesRD then Cmd.rd w else 0#4) (if f.usesRA then Cmd.ra w else 0#4)
    (if f.usesRB then Cmd.rb w else 0#4) (f.usesV && Cmd.v w)

/-- The opcode map, said once: an unassigned opcode, or the one command the fields name, format checked (R98). -/
theorem decodeOpcode_cases (w : BitVec 32) :
    (decodeOpcode w = .error .opcode ∧ ∀ row ∈ opcodeMap, (Cmd.op w).toNat ≠ row.1) ∨
    ∃ f i, NamesFields w f i ∧ decodeOpcode w = Cmd.withFormat f w i := by
  have hop : ∀ x : Nat, (Cmd.op w).toNat = x → Cmd.op w = BitVec.ofNat 8 x := fun x h => by
    rw [← h, BitVec.ofNat_toNat, BitVec.setWidth_eq]
  unfold decodeOpcode
  split
  case h_26 =>
    refine .inl ⟨rfl, ?_⟩
    simp only [opcodeMap, List.cons_append, List.nil_append, List.forall_mem_cons]
    refine ⟨?_, ?_, ?_, ?_, ?_, ?_, ?_, ?_, ?_, ?_, ?_, ?_, ?_, ?_, ?_, ?_, ?_, ?_, ?_, ?_, ?_, ?_, ?_, ?_, ?_, ?_⟩ <;>
      first | assumption | simp
  all_goals
    next heq =>
    refine .inr ⟨_, _, ?_, rfl⟩
    refine ⟨rfl, ?_, ?_, rfl, ?_⟩
    · exact (hop _ heq).symm
    · rw [heq]; decide
    · rw [hop _ heq]; rfl

/-- Each field a format leaves unused is zero (R97 (c)). -/
theorem unusedZero_eq_true_iff (f : Format) (w : BitVec 32) :
    Cmd.unusedZero f w = true ↔
      (f.usesRD = false → Cmd.rd w = 0#4) ∧ (f.usesRA = false → Cmd.ra w = 0#4) ∧
      (f.usesRB = false → Cmd.rb w = 0#4) ∧ (f.usesV = false → Cmd.v w = false) := by
  unfold Cmd.unusedZero
  cases f.usesRD <;> cases f.usesRA <;> cases f.usesRB <;> cases f.usesV <;> simp [and_assoc]

/-- Well-formedness of the command the fields name: every register field its format uses is below `nm` (R97 (d)). -/
theorem NamesFields.wellFormed_iff {w : BitVec 32} {f : Format} {i : Instr} (h : NamesFields w f i) (nm : Nat) :
    i.WellFormed nm ↔ (f.usesRD = true → (Cmd.rd w).toNat < nm) ∧ (f.usesRA = true → (Cmd.ra w).toNat < nm) ∧
      (f.usesRB = true → (Cmd.rb w).toNat < nm) := by
  unfold Instr.WellFormed
  rw [h.regs]
  cases f.usesRD <;> cases f.usesRA <;> cases f.usesRB <;> simp

/-- The reserved bits of a command's word are zero (R91). -/
theorem rsv_encode (i : Instr) : Cmd.rsv (encode i) = 0#11 := by
  cases i <;> exact rsv_packCmd ..

end Sys2Proof
end

