-- ==== Sys2Proof/Laws/State.lean ====
section
/-! SUPPORT. One lemma per field per update of State, and the register file's read-after-write laws. -/

namespace Sys2Proof.Machine

namespace State

variable (s : State)

@[simp] theorem setReg_cfg (r) (T : s.Reg) : (s.setReg r T).cfg = s.cfg := rfl
@[simp] theorem setReg_m (r) (T : s.Reg) : (s.setReg r T).m = s.m.setIfInBounds r.toNat T := rfl
@[simp] theorem setReg_status (r) (T : s.Reg) : (s.setReg r T).status = s.status := rfl
@[simp] theorem setReg_res (r) (T : s.Reg) : (s.setReg r T).res = s.res := rfl
@[simp] theorem setReg_rwd (r) (T : s.Reg) : (s.setReg r T).rwd = s.rwd := rfl
@[simp] theorem setReg_port (r) (T : s.Reg) : (s.setReg r T).port = s.port := rfl
@[simp] theorem setReg_script (r) (T : s.Reg) : (s.setReg r T).script = s.script := rfl
@[simp] theorem setReg_pos (r) (T : s.Reg) : (s.setReg r T).pos = s.pos := rfl

@[simp] theorem setRes_cfg (v) : (s.setRes v).cfg = s.cfg := rfl
@[simp] theorem setRes_m (v) : (s.setRes v).m = s.m := rfl
@[simp] theorem setRes_reg (v r) : (s.setRes v).reg r = s.reg r := rfl
@[simp] theorem setRes_status (v) : (s.setRes v).status = s.status := rfl
@[simp] theorem setRes_res (v) : (s.setRes v).res = v := rfl
@[simp] theorem setRes_rwd (v) : (s.setRes v).rwd = s.rwd := rfl
@[simp] theorem setRes_port (v) : (s.setRes v).port = s.port := rfl
@[simp] theorem setRes_script (v) : (s.setRes v).script = s.script := rfl
@[simp] theorem setRes_pos (v) : (s.setRes v).pos = s.pos := rfl

@[simp] theorem setRwd_cfg (x) : (s.setRwd x).cfg = s.cfg := rfl
@[simp] theorem setRwd_m (x) : (s.setRwd x).m = s.m := rfl
@[simp] theorem setRwd_reg (x r) : (s.setRwd x).reg r = s.reg r := rfl
@[simp] theorem setRwd_status (x) : (s.setRwd x).status = s.status := rfl
@[simp] theorem setRwd_res (x) : (s.setRwd x).res = s.res := rfl
@[simp] theorem setRwd_rwd (x) : (s.setRwd x).rwd = x := rfl
@[simp] theorem setRwd_port (x) : (s.setRwd x).port = s.port := rfl
@[simp] theorem setRwd_script (x) : (s.setRwd x).script = s.script := rfl
@[simp] theorem setRwd_pos (x) : (s.setRwd x).pos = s.pos := rfl

@[simp] theorem setStatus_cfg (c) : (s.setStatus c).cfg = s.cfg := rfl
@[simp] theorem setStatus_m (c) : (s.setStatus c).m = s.m := rfl
@[simp] theorem setStatus_reg (c r) : (s.setStatus c).reg r = s.reg r := rfl
@[simp] theorem setStatus_status (c) : (s.setStatus c).status = c.bits := rfl
@[simp] theorem setStatus_res (c) : (s.setStatus c).res = s.res := rfl
@[simp] theorem setStatus_rwd (c) : (s.setStatus c).rwd = s.rwd := rfl
@[simp] theorem setStatus_port (c) : (s.setStatus c).port = s.port := rfl
@[simp] theorem setStatus_script (c) : (s.setStatus c).script = s.script := rfl
@[simp] theorem setStatus_pos (c) : (s.setStatus c).pos = s.pos := rfl

@[simp] theorem ok_cfg : s.ok.cfg = s.cfg := rfl
@[simp] theorem ok_m : s.ok.m = s.m := rfl
@[simp] theorem ok_reg (r) : s.ok.reg r = s.reg r := rfl
@[simp] theorem ok_status : s.ok.status = 0#4 := rfl
@[simp] theorem ok_res : s.ok.res = s.res := rfl
@[simp] theorem ok_rwd : s.ok.rwd = s.rwd := rfl
@[simp] theorem ok_port : s.ok.port = s.port := rfl
@[simp] theorem ok_script : s.ok.script = s.script := rfl
@[simp] theorem ok_pos : s.ok.pos = s.pos := rfl

@[simp] theorem raise_cfg (e) : (s.raise e).cfg = s.cfg := rfl
@[simp] theorem raise_m (e) : (s.raise e).m = s.m := rfl
@[simp] theorem raise_reg (e r) : (s.raise e).reg r = s.reg r := rfl
@[simp] theorem raise_status (e) : (s.raise e).status = e.bits := rfl
@[simp] theorem raise_res (e) : (s.raise e).res = s.res := rfl
@[simp] theorem raise_rwd (e) : (s.raise e).rwd = s.rwd := rfl
@[simp] theorem raise_port (e) : (s.raise e).port = s.port := rfl
@[simp] theorem raise_script (e) : (s.raise e).script = s.script := rfl
@[simp] theorem raise_pos (e) : (s.raise e).pos = s.pos := rfl

@[simp] theorem accept_cfg (t) : (s.accept t).cfg = s.cfg := rfl
@[simp] theorem accept_m (t) : (s.accept t).m = s.m := rfl
@[simp] theorem accept_reg (t r) : (s.accept t).reg r = s.reg r := rfl
@[simp] theorem accept_status (t) : (s.accept t).status = s.status := rfl
@[simp] theorem accept_res (t) : (s.accept t).res = s.res := rfl
@[simp] theorem accept_rwd (t) : (s.accept t).rwd = s.rwd := rfl
@[simp] theorem accept_port (t) : (s.accept t).port = t := rfl
@[simp] theorem accept_script (t) : (s.accept t).script = s.script := rfl
@[simp] theorem accept_pos (t) : (s.accept t).pos = s.pos + 1 := rfl

@[simp] theorem withOpnd_cfg (n) : (s.withOpnd n).cfg = s.cfg := rfl
@[simp] theorem withOpnd_m (n) : (s.withOpnd n).m = s.m := rfl
@[simp] theorem withOpnd_reg (n r) : (s.withOpnd n).reg r = s.reg r := rfl
@[simp] theorem withOpnd_opnd (n) : (s.withOpnd n).opnd = n.toNat := rfl

@[simp] theorem applyReset_cfg : s.applyReset.cfg = s.cfg := rfl
@[simp] theorem applyReset_pos : s.applyReset.pos = s.pos + 1 := rfl
@[simp] theorem applyReset_script : s.applyReset.script = s.script := rfl
@[simp] theorem applyReset_status : s.applyReset.status = 0#4 := rfl
@[simp] theorem applyReset_res : s.applyReset.res = 0#64 := rfl
@[simp] theorem applyReset_rwd : s.applyReset.rwd = 0#s.cfg.W := rfl

/-- Reading register `x` after writing register `r`. -/
theorem reg_setReg (r x : RegField) (T : s.Reg) :
    (s.setReg r T).reg x = if r = x ∧ r.toNat < s.cfg.nm then T else s.reg x := by
  unfold reg setReg
  by_cases h : r = x
  · subst h
    by_cases hr : r.toNat < s.cfg.nm <;> simp [hr]
  · have : r.toNat ≠ x.toNat := fun e => h (BitVec.eq_of_toNat_eq e)
    simp [h, this]

/-- A register that was written holds the value written. -/
theorem reg_setReg_same {r : RegField} (h : r.toNat < s.cfg.nm) (T : s.Reg) : (s.setReg r T).reg r = T  :=
  (reg_setReg s r r T).trans (if_pos ⟨rfl, h⟩)

/-- Writing a register leaves every other register alone. -/
theorem reg_setReg_ne {r x : RegField} (h : r ≠ x) (T : s.Reg) : (s.setReg r T).reg x = s.reg x  :=
  (reg_setReg s r x T).trans (if_neg fun e => h e.1)

/-- The register a legal field names, as an entry of the register file. -/
theorem reg_eq_getElem {r : RegField} (h : r.toNat < s.cfg.nm) : s.reg r = s.m[r.toNat] := by
  simp [reg, h]

/-- Writing back the value a register holds changes nothing. -/
theorem setReg_reg (r : RegField) : s.m.setIfInBounds r.toNat (s.reg r) = s.m := by
  apply Vector.ext
  intro k hk
  rw [Vector.getElem_setIfInBounds]
  split
  · next h => subst h; simp [reg, hk]
  · rfl

/-- Two writes to one register: the later one stands. -/
theorem setReg_setReg (r : RegField) (T U : s.Reg) :
    (s.m.setIfInBounds r.toNat T).setIfInBounds r.toNat U = s.m.setIfInBounds r.toNat U := by
  apply Vector.ext
  intro k hk
  simp only [Vector.getElem_setIfInBounds]
  split <;> rfl

/-- A command whose register fields all name registers takes its own effect. -/
theorem withRegs_legal {rs : List RegField} (h : ∀ r ∈ rs, r.toNat < s.cfg.nm) (t : State) :
    s.withRegs rs t = .next t := if_pos h

/-- A command with a register field `>= NM` raises ILLEGAL_COMMAND (30_encoding.md R97). -/
theorem withRegs_illegal {rs : List RegField} (h : ¬∀ r ∈ rs, r.toNat < s.cfg.nm) (t : State) :
    s.withRegs rs t = .next (s.raise .illegalCommand) := if_neg h

end State

/-- Every admitted word width is positive (00_scope.md R5). -/
theorem W_pos (p : Params) : 0 < p.W := by
  cases h : p.width <;> simp [Params.W, h, Width.bits]

/-- Every admitted word width is at most 128 (00_scope.md R5). -/
theorem W_le (p : Params) : p.W ≤ 128 := by
  cases h : p.width <;> simp [Params.W, h, Width.bits]

/-- `NW*W < 2^39`, so every length, index and count fits 64 bits (00_scope.md R8). -/
theorem capacity_lt (p : Params) : p.nw * p.W < 2 ^ 39 := by
  have h1 := p.nw_range.2
  have h2 := W_le p
  calc p.nw * p.W ≤ (2 ^ 32 - 1) * 128 := Nat.mul_le_mul h1 h2
    _ < 2 ^ 39 := by norm_num

/-- A register file holds at least one bit per register. -/
theorem capacity_pos (p : Params) : 0 < p.nw * p.W :=
  Nat.mul_pos p.nw_range.1 (W_pos p)

/-- A number of at most `NW*W` fits `RES` (00_scope.md R8). -/
theorem toNat_ofNat_of_le_capacity (p : Params) {n : Nat} (h : n ≤ p.nw * p.W) : (BitVec.ofNat 64 n).toNat = n := by
  have := capacity_lt p
  rw [BitVec.toNat_ofNat, Nat.mod_eq_of_lt]
  omega

/-- What a command with register fields `rs` answers: one next state, whichever way the check goes. -/
theorem State.withRegs_eq (s : State) (rs : List RegField) (t : State) :
    s.withRegs rs t = .next (if ∀ r ∈ rs, r.toNat < s.cfg.nm then t else s.raise .illegalCommand) := by
  unfold State.withRegs
  split <;> rfl

end Sys2Proof.Machine
end

