-- ==== Sys2Proof/Laws/Registers.lean ====
section
/-! SUPPORT. Reading register values word by word and bit by bit: each building operation of Machine/Ops.lean is
unfolded here once, and two values that agree bit for bit are shown equal. -/

namespace Sys2Proof.Machine

variable {W NW : Nat}

/-! ## Words -/

theorem getLsbD_shlW (x : Word W) (s b : Nat) :
    (shlW x s).getLsbD b = (decide (b < W) && !decide (b < s) && x.getLsbD (b - s)) := by
  unfold shlW
  split
  · next h =>
    by_cases hb : b < W
    · simp [show b < s by omega]
    · simp [hb]
  · simp

theorem getLsbD_shrW (x : Word W) (s b : Nat) : (shrW x s).getLsbD b = x.getLsbD (s + b) := by
  unfold shrW
  split
  · next h => simp [BitVec.getLsbD_of_ge x (s + b) (by omega)]
  · simp

/-- Decomposing a bit index into word and offset decides the order of two indices. -/
theorem lt_iff_div_mod (hW : 0 < W) (j L : Nat) :
    j < L ↔ j / W < L / W ∨ (j / W = L / W ∧ j % W < L % W) := by
  have hj := Nat.div_add_mod j W
  have hL := Nat.div_add_mod L W
  have h1 := Nat.mod_lt j hW
  have h2 := Nat.mod_lt L hW
  constructor
  · intro h
    rcases Nat.lt_trichotomy (j / W) (L / W) with h' | h' | h'
    · exact .inl h'
    · rw [h'] at hj; exact .inr ⟨h', by omega⟩
    · have : W * (L / W + 1) ≤ W * (j / W) := Nat.mul_le_mul_left _ h'
      rw [Nat.mul_add] at this; omega
  · rintro (h | ⟨h, h'⟩)
    · have : W * (j / W + 1) ≤ W * (L / W) := Nat.mul_le_mul_left _ h
      rw [Nat.mul_add] at this; omega
    · rw [h] at hj; omega

/-- The tail mask has exactly the low `L % W` bits (20_memory.md R64). -/
theorem getLsbD_tailmask (hW : 0 < W) (L b : Nat) : (tailmask W L : Word W).getLsbD b = decide (b < L % W) := by
  have hs : L % W < W := Nat.mod_lt _ hW
  have hval : (tailmask W L : Word W) = BitVec.ofNat W (2 ^ (L % W) - 1) := by
    apply BitVec.eq_of_toNat_eq
    have h2 : 2 ^ (L % W) < 2 ^ W := Nat.pow_lt_pow_right (by decide) hs
    have h1 : 0 < 2 ^ (L % W) := Nat.two_pow_pos _
    have hW1 : 1 < 2 ^ W := Nat.one_lt_two_pow hW.ne'
    simp only [tailmask, shlW, show ¬W ≤ L % W by omega, if_false, BitVec.toNat_sub, BitVec.toNat_shiftLeft,
      BitVec.toNat_ofNat, Nat.shiftLeft_eq, Nat.mod_eq_of_lt hW1, Nat.one_mul, Nat.mod_eq_of_lt h2]
    rw [show 2 ^ W - 1 + 2 ^ (L % W) = 2 ^ (L % W) - 1 + 2 ^ W by omega, Nat.add_mod_right]
  rw [hval, BitVec.getLsbD_ofNat, Nat.testBit_two_pow_sub_one]
  by_cases hb : b < L % W
  · simp [hb, show b < W by omega]
  · simp [hb]

/-- The tail mask as a number (20_memory.md R64). -/
theorem tailmask_eq_ofNat (hW : 0 < W) (L : Nat) : (tailmask W L : Word W) = BitVec.ofNat W (2 ^ (L % W) - 1) := by
  apply BitVec.eq_of_getLsbD_eq
  intro i hi
  rw [getLsbD_tailmask hW, BitVec.getLsbD_ofNat, Nat.testBit_two_pow_sub_one]
  simp [hi]

theorem getElem_tabulate {α : Type} (n : Nat) (f : Nat → α) (k : Nat) (h : k < n) : (tabulate n f)[k] = f k := by
  simp [tabulate]

namespace MaskReg

variable (X Y : MaskReg W NW)

/-! ## Physical words -/

theorem phys_of_lt {k : Nat} (h : k < NW) : X.phys k = X.w[k] := by simp [phys, h]

theorem phys_of_ge {k : Nat} (h : NW ≤ k) : X.phys k = 0#W := by simp [phys, Nat.not_lt.mpr h]

@[simp] theorem len_build (L : Nat) (f : Nat → Word W) : (build W NW L f).len = L := rfl
@[simp] theorem len_lanes (L : Nat) (f : Nat → Word W) : (lanes W NW L f).len = L := rfl
@[simp] theorem len_setWord (k : Nat) (x : Word W) : (X.setWord k x).len = X.len := rfl
@[simp] theorem len_tailfix : X.tailfix.len = X.len := rfl
@[simp] theorem len_ofBits (L : Nat) (f : Nat → Bool) : (ofBits W NW L f).len = L := rfl
@[simp] theorem len_empty : (empty W NW).len = 0 := rfl

theorem phys_build (L : Nat) (f : Nat → Word W) (k : Nat) :
    (build W NW L f).phys k = if k < NW then f k else 0#W := by
  split
  · next h => rw [phys_of_lt _ h]; exact getElem_tabulate _ _ _ h
  · next h => exact phys_of_ge _ (Nat.not_lt.mp h)

theorem phys_lanes (L : Nat) (f : Nat → Word W) (k : Nat) :
    (lanes W NW L f).phys k = if k < NW ∧ k < nwords W L then f k else 0#W := by
  rw [lanes, phys_build]
  by_cases h : k < NW <;> simp [h]

theorem phys_setWord (k : Nat) (x : Word W) (j : Nat) :
    (X.setWord k x).phys j = if k = j ∧ j < NW then x else X.phys j := by
  by_cases hj : j < NW
  · rw [phys_of_lt _ hj, phys_of_lt _ hj]
    simp [setWord, Vector.getElem_setIfInBounds, hj]
  · simp [phys_of_ge _ (Nat.not_lt.mp hj), hj]

@[simp] theorem phys_empty (k : Nat) : (empty W NW).phys k = 0#W := by
  by_cases h : k < NW
  · simp [phys_of_lt _ h, empty]
  · exact phys_of_ge _ (Nat.not_lt.mp h)

/-- The tail correction, word by word (20_memory.md R65). -/
theorem phys_tailfix (k : Nat) :
    X.tailfix.phys k = if k = X.len / W then X.phys k &&& tailmask W X.len else X.phys k := by
  rw [tailfix, phys_setWord]
  by_cases h : k = X.len / W
  · subst h
    by_cases hk : X.len / W < NW
    · simp [hk]
    · simp [hk, phys_of_ge _ (Nat.not_lt.mp hk)]
  · simp [h, Ne.symm h]

/-- Two values of one length that agree on every physical word are equal. -/
theorem ext_phys {X Y : MaskReg W NW} (hl : X.len = Y.len) (h : ∀ k < NW, X.phys k = Y.phys k) : X = Y := by
  cases X with | mk l w => cases Y with | mk l' w' =>
  obtain rfl : l = l' := hl
  congr
  apply Vector.ext
  intro k hk
  have := h k hk
  rwa [phys_of_lt _ hk, phys_of_lt _ hk] at this

/-! ## Bits -/

theorem div_lt_of_lt_capacity {j : Nat} (h : j < NW * W) : j / W < NW :=
  Nat.div_lt_of_lt_mul (by rwa [Nat.mul_comm])

theorem bit_eq (j : Nat) (hW : 0 < W) : X.bit j = (X.phys (j / W)).getLsbD (j % W) := by
  unfold bit
  split
  · rfl
  · next h =>
    rw [phys_of_ge]
    · simp
    · exact (Nat.le_div_iff_mul_le hW).mpr (Nat.not_lt.mp h)

theorem bit_of_ge {j : Nat} (h : NW * W ≤ j) : X.bit j = false := by
  simp [bit, Nat.not_lt.mpr h]

/-- Bit `b` of physical word `k` is logical bit `k*W + b` (10_state.md R32). -/
theorem getLsbD_phys (k : Nat) {b : Nat} (hb : b < W) : (X.phys k).getLsbD b = X.bit (k * W + b) := by
  have hW : 0 < W := by omega
  rw [bit_eq _ _ hW, Nat.mul_comm k W, Nat.mul_add_div hW, Nat.mul_add_mod, Nat.div_eq_of_lt hb,
    Nat.mod_eq_of_lt hb, Nat.add_zero]

/-- Two values of one length that agree on every physical bit are equal. -/
theorem ext_bit {X Y : MaskReg W NW} (hl : X.len = Y.len) (h : ∀ j < NW * W, X.bit j = Y.bit j) : X = Y := by
  refine ext_phys hl fun k hk => BitVec.eq_of_getLsbD_eq fun b hb => ?_
  rw [getLsbD_phys _ _ hb, getLsbD_phys _ _ hb]
  refine h _ ?_
  calc k * W + b < k * W + W := by omega
    _ = (k + 1) * W := by ring
    _ ≤ NW * W := Nat.mul_le_mul_right _ hk

theorem bit_build (hW : 0 < W) (L : Nat) (f : Nat → Word W) {j : Nat} (hj : j < NW * W) :
    (build W NW L f).bit j = (f (j / W)).getLsbD (j % W) := by
  rw [bit_eq _ _ hW, phys_build, if_pos (div_lt_of_lt_capacity hj)]

/-- The bits of `mk(L, f)` (00_scope.md R15). -/
theorem bit_ofBits (L : Nat) (f : Nat → Bool) {j : Nat} (hj : j < NW * W) :
    (ofBits W NW L f).bit j = (decide (j < L) && f j) := by
  have hW : 0 < W := Nat.pos_of_ne_zero fun h => by simp [h] at hj
  rw [ofBits, bit_build hW _ _ hj, BitVec.getLsbD_ofFnLE, dif_pos (Nat.mod_lt _ hW)]
  simp only [Nat.div_add_mod' j W]

/-- `bit_ofBits` for a legal length, at every index. -/
theorem bit_ofBits_of_le {L : Nat} (f : Nat → Bool) (h : L ≤ NW * W - 1) (j : Nat) :
    (ofBits W NW L f).bit j = (decide (j < L) && f j) := by
  by_cases hj : j < NW * W
  · exact bit_ofBits _ _ hj
  · rw [bit_of_ge _ (by omega)]
    simp
    intro
    omega

/-- A value of length `L` with the bits of `f` below `L` and 0 above is `mk(L, f)`. -/
theorem eq_ofBits {X : MaskReg W NW} {L : Nat} {f : Nat → Bool} (hl : X.len = L)
    (h : ∀ j < NW * W, X.bit j = (decide (j < L) && f j)) : X = ofBits W NW L f :=
  ext_bit hl fun j hj => (h j hj).trans (bit_ofBits L f hj).symm

/-- The tail correction, bit by bit: in the tail word only offsets below `len % W` stay (20_memory.md R65). -/
theorem bit_tailfix (hW : 0 < W) (j : Nat) :
    X.tailfix.bit j = (X.bit j && (decide (j / W ≠ X.len / W) || decide (j % W < X.len % W))) := by
  rw [bit_eq _ _ hW, bit_eq _ _ hW, phys_tailfix]
  split
  · next h => simp [h, getLsbD_tailmask hW]
  · next h => simp [h]

/-- The bits a value built from `mk` has are padded with zeros. -/
theorem ofBits_padZero (L : Nat) (f : Nat → Bool) : (ofBits W NW L f).PadZero := fun j hj hL => by
  rw [bit_ofBits _ _ hj, decide_eq_false (by simpa using hL), Bool.false_and]

theorem empty_inv : (empty W NW).Inv := by
  refine ⟨by simp [Bounded], fun j _ _ => ?_⟩
  simp [bit]

/-! ## Padding -/

theorem PadZero.bit_eq_false {X : MaskReg W NW} (h : X.PadZero) {j : Nat} (hj : X.len ≤ j) : X.bit j = false := by
  by_cases hc : j < NW * W
  · exact h j hc hj
  · exact X.bit_of_ge (Nat.not_lt.mp hc)

/-- Under the padding-zero invariant the implicit-zero lookup is the physical word (20_memory.md R63). -/
theorem PadZero.word_eq_phys {X : MaskReg W NW} (h : X.PadZero) (k : Nat) : X.word k = X.phys k := by
  unfold word
  split
  · rfl
  · next hk =>
    symm
    apply BitVec.eq_of_getLsbD_eq
    intro b hb
    rw [getLsbD_phys _ _ hb, BitVec.getLsbD_zero]
    apply h.bit_eq_false
    have hW : 0 < W := by omega
    have : (X.len / W + 1) * W ≤ k * W := Nat.mul_le_mul_right _ (Nat.not_lt.mp hk)
    have h2 := Nat.div_add_mod' X.len W
    have h3 := Nat.mod_lt X.len hW
    rw [Nat.add_mul] at this
    omega

theorem PadZero.getLsbD_word {X : MaskReg W NW} (h : X.PadZero) (k : Nat) {b : Nat} (hb : b < W) :
    (X.word k).getLsbD b = X.bit (k * W + b) := by
  rw [h.word_eq_phys, getLsbD_phys _ _ hb]

/-- A value that keeps its padding zero is determined by its length and its logical bits (10_state.md R47). -/
theorem PadZero.eq_ofBits {X : MaskReg W NW} (h : X.PadZero) : X = ofBits W NW X.len X.bit :=
  MaskReg.eq_ofBits rfl fun j hj => by
    by_cases hl : j < X.len
    · simp [hl]
    · simp [hl, h j hj (Nat.not_lt.mp hl)]

/-- Lengths within `L_MAX` index an existing tail word. -/
theorem Bounded.tail_lt {X : MaskReg W NW} (h : X.Bounded) (hc : 0 < NW * W) : X.len / W < NW :=
  div_lt_of_lt_capacity (by unfold Bounded at h; omega)

end MaskReg

end Sys2Proof.Machine
end

