-- ==== Sys2Proof/Laws/Values.lean ====
section
/-! SUPPORT. The value each writing command computes, said once: its words, and its bits as a `mk` of
00_scope.md R15. -/

namespace Sys2Proof.Machine.MaskReg

variable {W NW : Nat}

/-! ## Construction -/

@[simp] theorem len_zeros (L : Nat) : (zeros W NW L).len = L := rfl
@[simp] theorem len_fill (L : Nat) (v : Bool) : (fill W NW L v).len = L := rfl
@[simp] theorem len_combine (op) (L : Nat) (A B : MaskReg W NW) : (combine op L A B).len = L := rfl
@[simp] theorem len_complement (A : MaskReg W NW) : A.complement.len = A.len := rfl
@[simp] theorem len_shiftRight (A : MaskReg W NW) (n : Nat) : (A.shiftRight n).len = A.len := rfl
@[simp] theorem len_shiftLeft (A : MaskReg W NW) (n : Nat) : (A.shiftLeft n).len = A.len := rfl
@[simp] theorem len_writeBit (A : MaskReg W NW) (i : Nat) (v : Bool) : (A.writeBit i v).len = A.len := rfl
@[simp] theorem len_storeWord (A : MaskReg W NW) (k : Nat) (x : Word W) : (A.storeWord k x).len = A.len := rfl

theorem zeros_eq_ofBits (hW : 0 < W) (L : Nat) : zeros W NW L = ofBits W NW L fun _ => false :=
  eq_ofBits rfl fun j hj => by simp [zeros, bit_build hW _ _ hj]

theorem phys_zeros (L k : Nat) : (zeros W NW L).phys k = 0#W := by
  rw [zeros, phys_build]; simp

/-- SETALL and ONES give `mk(L, j -> v)` (R121, R122). -/
theorem fill_eq_ofBits (hW : 0 < W) (L : Nat) (v : Bool) : fill W NW L v = ofBits W NW L fun _ => v :=
  eq_ofBits rfl fun j hj => by
    rw [fill, bit_tailfix _ hW, bit_build hW _ _ hj, len_build]
    have hb := Nat.mod_lt j hW
    have hlt := lt_iff_div_mod hW j L
    cases v
    · simp
    · have hn : nwords W L = L / W + 1 := rfl
      simp only [Bool.true_and, Bool.and_true, hlt]
      by_cases h : j / W < nwords W L
      · rw [if_pos (decide_eq_true h), BitVec.getLsbD_allOnes]
        by_cases h2 : j / W = L / W
        · simp [h2, hb]
        · simp [h2, hb, show j / W < L / W by omega]
      · rw [if_neg (by simpa using h)]
        simp [show ¬j / W < L / W by omega, show ¬j / W = L / W by omega]

/-! ## Boolean operators -/

/-- The words of a binary operator's result (R180 to R182, R184 to R186). -/
theorem phys_combine (op : Word W → Word W → Word W) (L : Nat) (A B : MaskReg W NW) (k : Nat) :
    (combine op L A B).phys k = if k < NW ∧ k < nwords W L then op (A.word k) (B.word k) else 0#W :=
  phys_lanes _ _ _

/-- A word operator that acts bitwise as `g`, with `g` false above the result length, gives `mk(L, g)` (R187). -/
theorem combine_eq_ofBits (hW : 0 < W) {op : Word W → Word W → Word W} {g : Bool → Bool → Bool}
    (hop : ∀ x y b, b < W → (op x y).getLsbD b = g (x.getLsbD b) (y.getLsbD b))
    {L : Nat} {A B : MaskReg W NW} (hA : A.PadZero) (hB : B.PadZero)
    (hg : ∀ j, L ≤ j → g (A.bit j) (B.bit j) = false) :
    combine op L A B = ofBits W NW L fun j => g (A.bit j) (B.bit j) :=
  eq_ofBits rfl fun j hj => by
    have hb := Nat.mod_lt j hW
    have hjd := Nat.div_add_mod' j W
    rw [combine, lanes, bit_build hW _ _ hj]
    split
    · rw [hop _ _ _ hb, hA.getLsbD_word _ hb, hB.getLsbD_word _ hb, hjd]
      by_cases h : j < L
      · simp [h]
      · simp [h, hg j (Nat.not_lt.mp h)]
    · next h =>
      have : ¬j < L := by
        rw [lt_iff_div_mod hW]; unfold nwords at h; omega
      simp [this]

/-- NOT gives `mk(A.len, j -> 1 - bit(A, j))` (R183, R187). -/
theorem complement_eq_ofBits (hW : 0 < W) (A : MaskReg W NW) :
    A.complement = ofBits W NW A.len fun j => !A.bit j :=
  eq_ofBits rfl fun j hj => by
    have hb := Nat.mod_lt j hW
    have hlt := lt_iff_div_mod hW j A.len
    rw [complement, bit_tailfix _ hW, len_lanes, lanes, bit_build hW _ _ hj, A.bit_eq j hW]
    unfold nwords
    by_cases h : j / W < A.len / W + 1
    · by_cases h2 : j / W = A.len / W
      · simp [h2, hb, hlt, Bool.and_comm]
      · simp [h, h2, hb, hlt, show j / W < A.len / W by omega]
    · simp [h, hlt, show ¬j / W < A.len / W by omega, show ¬j / W = A.len / W by omega]

/-- The words of NOT's result (R183). -/
theorem phys_complement (A : MaskReg W NW) (k : Nat) :
    A.complement.phys k = if k < NW ∧ k < nwords W A.len then
      (if k = A.len / W then ~~~(A.phys k) &&& tailmask W A.len else ~~~(A.phys k)) else 0#W := by
  rw [complement, phys_tailfix, phys_lanes, len_lanes]
  by_cases h : k < NW ∧ k < nwords W A.len
  · simp [h]
  · simp [h]

/-! ## Shifts -/

/-- SHR gives `mk(A.len, j -> bit(A, j + n))` (R210). -/
theorem shiftRight_eq_ofBits (hW : 0 < W) {A : MaskReg W NW} (hA : A.PadZero) (n : Nat) :
    A.shiftRight n = ofBits W NW A.len fun j => A.bit (j + n) :=
  eq_ofBits rfl fun j hj => by
    have hb := Nat.mod_lt j hW
    have hs := Nat.mod_lt n hW
    have hjd := Nat.div_add_mod' j W
    have hnd := Nat.div_add_mod' n W
    have hright : (decide (j < A.len) && A.bit (j + n)) = A.bit (j + n) := by
      by_cases h : j < A.len
      · simp [h]
      · simp [h, hA.bit_eq_false (show A.len ≤ j + n by omega)]
    rw [shiftRight, bit_build hW _ _ hj, hright]
    simp only [BitVec.getLsbD_or, getLsbD_shrW]
    by_cases hc : n % W + j % W < W
    · have hidx : (j / W + n / W) * W + (n % W + j % W) = j + n := by rw [Nat.add_mul]; omega
      rw [hA.getLsbD_word _ hc, hidx]
      split
      · simp
      · rw [getLsbD_shlW]
        simp [show j % W < W - n % W by omega]
    · have hidx : (j / W + n / W + 1) * W + (j % W - (W - n % W)) = j + n := by
        rw [Nat.add_mul, Nat.add_mul]; omega
      rw [BitVec.getLsbD_of_ge _ _ (Nat.not_lt.mp hc), if_neg (by omega), getLsbD_shlW,
        hA.getLsbD_word _ (by omega), hidx]
      simp [hb, show ¬j % W < W - n % W by omega]

/-- SHL gives `mk(A.len, j -> (j >= n) ? bit(A, j - n) : 0)` (R211). -/
theorem shiftLeft_eq_ofBits (hW : 0 < W) {A : MaskReg W NW} (hA : A.PadZero) (n : Nat) :
    A.shiftLeft n = ofBits W NW A.len fun j => decide (n ≤ j) && A.bit (j - n) :=
  eq_ofBits rfl fun j hj => by
    have hb := Nat.mod_lt j hW
    have hs := Nat.mod_lt n hW
    have hjd := Nat.div_add_mod' j W
    have hnd := Nat.div_add_mod' n W
    have hlt := lt_iff_div_mod hW j A.len
    rw [shiftLeft, bit_tailfix _ hW, bit_build hW _ _ hj, len_build]
    unfold nwords
    by_cases hk : j / W ≥ A.len / W + 1
    · simp [hk, hlt, show ¬j / W < A.len / W by omega, show ¬j / W = A.len / W by omega]
    · have htail : (decide (j / W ≠ A.len / W) || decide (j % W < A.len % W)) = decide (j < A.len) := by
        rw [Bool.eq_iff_iff]; simp [hlt]; omega
      rw [if_neg hk, htail, Bool.and_comm]
      congr 1
      simp only [BitVec.getLsbD_or, getLsbD_shlW, hb, decide_true, Bool.true_and]
      have hle := lt_iff_div_mod hW j n
      by_cases h1 : n / W ≤ j / W
      · have hm := Nat.mul_le_mul_right W h1
        by_cases h2 : n % W ≤ j % W
        · have hidx : (j / W - n / W) * W + (j % W - n % W) = j - n := by rw [Nat.sub_mul]; omega
          have hnj : n ≤ j := by omega
          rw [if_pos (show j / W ≥ n / W from h1), hA.getLsbD_word _ (by omega), hidx]
          split
          · simp [hnj, show ¬j % W < n % W by omega]
          · rw [getLsbD_shrW, BitVec.getLsbD_of_ge _ _ (by omega)]
            simp [hnj, show ¬j % W < n % W by omega]
        · by_cases h3 : j / W < n / W + 1
          · have : ¬n ≤ j := by omega
            simp [show j % W < n % W by omega, h3, this]
          · have hm2 := Nat.mul_le_mul_right W (show n / W + 1 ≤ j / W by omega)
            rw [Nat.add_mul] at hm2
            have hidx : (j / W - n / W - 1) * W + (W - n % W + j % W) = j - n := by
              rw [Nat.sub_mul, Nat.sub_mul]; omega
            rw [if_neg (show ¬(n % W = 0 ∨ j / W < n / W + 1) by omega), getLsbD_shrW,
              hA.getLsbD_word _ (by omega), hidx]
            simp [show j % W < n % W by omega, show n ≤ j by omega]
      · have : ¬n ≤ j := by omega
        simp [show ¬j / W ≥ n / W by omega, show j / W < n / W + 1 by omega, this]

/-! ## Single bits and single words -/

/-- SET changes logical bit `i` and no other physical bit (R140). -/
theorem bit_writeBit (hW : 0 < W) (X : MaskReg W NW) {i : Nat} (hi : i < NW * W) (v : Bool) (j : Nat) :
    (X.writeBit i v).bit j = if j = i then v else X.bit j := by
  have hs : i % W < W := Nat.mod_lt _ hW
  have hq : i / W < NW := div_lt_of_lt_capacity hi
  by_cases hj : j < NW * W
  · rw [bit_eq _ _ hW, writeBit, phys_setWord, bit_eq X _ hW]
    simp only [widx, off]
    have hb := Nat.mod_lt j hW
    have h1 : (shlW 1#W (i % W)).getLsbD (j % W) = decide (j % W = i % W) := by
      rw [getLsbD_shlW, BitVec.getLsbD_one]
      rw [Bool.eq_iff_iff]; simp; omega
    by_cases hqe : i / W = j / W
    · simp only [hqe, div_lt_of_lt_capacity hj, and_self, if_true]
      have hji : j = i ↔ j % W = i % W := by
        constructor
        · rintro rfl; rfl
        · intro h
          have a := Nat.div_add_mod' j W
          have b := Nat.div_add_mod' i W
          rw [← a, ← b, hqe, h]
      cases v
      · simp only [Bool.false_eq_true, if_false, BitVec.getLsbD_and, BitVec.getLsbD_not, h1, hb, hji]
        by_cases hji' : j % W = i % W <;> simp [hji']
      · simp only [if_true, BitVec.getLsbD_or, h1, hji]
        by_cases hji' : j % W = i % W <;> simp [hji']
    · have : j ≠ i := fun e => hqe (by rw [e])
      simp [hqe, this]
  · rw [bit_of_ge _ (Nat.not_lt.mp hj), bit_of_ge _ (Nat.not_lt.mp hj), if_neg (by omega)]

/-- GET's bit test reads logical bit `i` (R141). -/
theorem readBit_eq_bit (hW : 0 < W) (X : MaskReg W NW) (i : Nat) : X.readBit i = X.bit i := by
  have key : ∀ x : Word W, ((x &&& 1#W) == 1#W) = x.getLsbD 0 := by
    intro x
    rw [Bool.eq_iff_iff, beq_iff_eq]
    constructor
    · intro h
      have := congrArg (fun y : Word W => y.getLsbD 0) h
      simpa [hW] using this
    · intro h
      apply BitVec.eq_of_getLsbD_eq
      intro b hb
      by_cases hb0 : b = 0
      · subst hb0; simp [h]
      · simp [BitVec.getLsbD_one, hb0]
  rw [readBit, key, getLsbD_shrW, bit_eq _ _ hW]
  rfl

/-- WRW replaces the bits of word `k`, masked in the tail word, and leaves every other bit (R251). -/
theorem bit_storeWord (hW : 0 < W) (X : MaskReg W NW) {k : Nat} (hk : k < nwords W X.len) (data : Word W)
    {j : Nat} (hj : j < NW * W) :
    (X.storeWord k data).bit j =
      if j / W = k then decide (j < X.len) && data.getLsbD (j % W) else X.bit j := by
  have hlt := lt_iff_div_mod hW j X.len
  rw [bit_eq _ _ hW, storeWord, phys_setWord, bit_eq X _ hW]
  unfold nwords at hk
  by_cases h : k = j / W
  · subst h
    simp only [div_lt_of_lt_capacity hj, and_self, if_true]
    split
    · next h2 => simp [hlt, h2, getLsbD_tailmask hW, Bool.and_comm]
    · next h2 => simp [hlt, show j / W < X.len / W by omega]
  · simp [h, Ne.symm h]

/-! ## Every value a command writes keeps the invariants -/

theorem ofBits_inv {L : Nat} {f : Nat → Bool} (h : L ≤ NW * W - 1) : (ofBits W NW L f).Inv :=
  ⟨h, ofBits_padZero L f⟩

theorem combine_padZero (hW : 0 < W) {op : Word W → Word W → Word W} {g : Bool → Bool → Bool}
    (hop : ∀ x y b, b < W → (op x y).getLsbD b = g (x.getLsbD b) (y.getLsbD b))
    {L : Nat} {A B : MaskReg W NW} (hA : A.PadZero) (hB : B.PadZero)
    (hg : ∀ j, L ≤ j → g (A.bit j) (B.bit j) = false) : (combine op L A B).PadZero := by
  rw [combine_eq_ofBits hW hop hA hB hg]; exact ofBits_padZero _ _

theorem writeBit_padZero (hW : 0 < W) {X : MaskReg W NW} (h : X.Inv) {i : Nat} (hi : i < X.len) (v : Bool) :
    (X.writeBit i v).PadZero := fun j hj hl => by
  have hb := h.1
  unfold Bounded at hb
  rw [bit_writeBit hW X (by omega), if_neg (by rw [len_writeBit] at hl; omega)]
  exact h.2 j hj hl

theorem storeWord_padZero (hW : 0 < W) {X : MaskReg W NW} (h : X.PadZero) {k : Nat} (hk : k < nwords W X.len)
    (data : Word W) : (X.storeWord k data).PadZero := fun j hj hl => by
  have hl' : X.len ≤ j := hl
  rw [bit_storeWord hW X hk data hj, h j hj hl']
  simp [Nat.not_lt.mpr hl']

end Sys2Proof.Machine.MaskReg
end

