-- ==== Sys2Proof/Laws/Exec.lean ====
section
/-! SUPPORT. What a command can do, said once: `exec` answers a next state on every input, and that state is one of
four kinds. Whole-machine claims are derived from `exec_cases`, not by unfolding the 25 meanings again. -/

namespace Sys2Proof.Machine

/-- The word operators of the boolean tree act bitwise. -/
theorem getLsbD_and_bitwise {W : Nat} (x y : Word W) (b : Nat) (_ : b < W) :
    (x &&& y).getLsbD b = (x.getLsbD b && y.getLsbD b) := BitVec.getLsbD_and

theorem getLsbD_or_bitwise {W : Nat} (x y : Word W) (b : Nat) (_ : b < W) :
    (x ||| y).getLsbD b = (x.getLsbD b || y.getLsbD b) := BitVec.getLsbD_or

theorem getLsbD_xor_bitwise {W : Nat} (x y : Word W) (b : Nat) (_ : b < W) :
    (x ^^^ y).getLsbD b = (x.getLsbD b ^^ y.getLsbD b) := BitVec.getLsbD_xor

/-- A register value a command may write: one that keeps the invariants whenever the register file does. -/
def State.Writable (s : State) (T : s.Reg) : Prop := s.Inv → T.Inv

/-- The four ways a command ends: an error, which touches `STATUS` alone, or a success that writes one mask
register, `RES`, or `RWD`. -/
inductive Ends (i : Instr) (s : State) : Host.Outcome State Fault Refusal → Prop
  | error (c : Code) (hc : c ≠ .ok) : Ends i s (.next (s.raise c))
  | reg (d : RegField) (T : s.Reg) (hd : i.dest = some d) (hT : s.Writable T) (hl : d.toNat < s.cfg.nm) :
      Ends i s (.next (s.setReg d T).ok)
  | res (v : BitVec 64) (h : i.writesRes = true) : Ends i s (.next (s.setRes v).ok)
  | rwd (x : Word s.cfg.W) (h : i.writesRwd = true) : Ends i s (.next (s.setRwd x).ok)

/-- An illegal register field ends a command with ILLEGAL_COMMAND; otherwise its own effect decides. -/
theorem Ends.of_withRegs {i : Instr} {s : State} {rs : List RegField} {t : State}
    (h : (∀ r ∈ rs, r.toNat < s.cfg.nm) → Ends i s (.next t)) : Ends i s (s.withRegs rs t) := by
  by_cases hr : ∀ r ∈ rs, r.toNat < s.cfg.nm
  · rw [s.withRegs_legal hr]; exact h hr
  · rw [s.withRegs_illegal hr]; exact .error _ (by decide)

/-- The invariant of a register a legal field names. -/
theorem State.Inv.reg_padZero {s : State} (h : s.Inv) {r : RegField} (hr : r.toNat < s.cfg.nm) :
    (s.reg r).PadZero := (h r hr).2

theorem State.Inv.reg_bounded {s : State} (h : s.Inv) {r : RegField} (hr : r.toNat < s.cfg.nm) :
    (s.reg r).Bounded := (h r hr).1

/-- What a command can do. -/
theorem exec_cases (i : Instr) (s : State) : Ends i s (exec i s) := by
  have hW := W_pos s.cfg
  cases i with
  | zeros d =>
    refine .of_withRegs fun h => ?_
    simp only [List.mem_singleton, forall_eq] at h
    split
    · exact .error _ (by decide)
    · next hs =>
      refine .reg d _ rfl (fun _ => ?_) h
      rw [MaskReg.zeros_eq_ofBits hW]
      exact MaskReg.ofBits_inv (Nat.not_lt.mp hs)
  | ones d =>
    refine .of_withRegs fun h => ?_
    simp only [List.mem_singleton, forall_eq] at h
    split
    · exact .error _ (by decide)
    · next hs =>
      refine .reg d _ rfl (fun _ => ?_) h
      rw [MaskReg.fill_eq_ofBits hW]
      exact MaskReg.ofBits_inv (Nat.not_lt.mp hs)
  | setall d v =>
    refine .of_withRegs fun h => ?_
    simp only [List.mem_singleton, forall_eq] at h
    refine .reg d _ rfl (fun hi => ?_) h
    rw [MaskReg.fill_eq_ofBits hW]
    exact MaskReg.ofBits_inv (hi.reg_bounded h)
  | mov d a =>
    refine .of_withRegs fun h => ?_
    simp only [List.mem_cons, List.not_mem_nil, or_false, forall_eq_or_imp, forall_eq] at h
    exact .reg d _ rfl (fun hi => hi a h.2) h.1
  | set d v =>
    refine .of_withRegs fun h => ?_
    simp only [List.mem_singleton, forall_eq] at h
    split
    · exact .error _ (by decide)
    · next hs =>
      exact .reg d _ rfl (fun hi => ⟨hi.reg_bounded h,
        MaskReg.writeBit_padZero hW (hi d h) (Nat.not_le.mp hs) v⟩) h
  | wrw d =>
    refine .of_withRegs fun h => ?_
    simp only [List.mem_singleton, forall_eq] at h
    split
    · exact .error _ (by decide)
    · next hs =>
      exact .reg d _ rfl (fun hi => ⟨hi.reg_bounded h,
        MaskReg.storeWord_padZero hW (hi.reg_padZero h) (Nat.not_le.mp hs) _⟩) h
  | get a =>
    refine .of_withRegs fun _ => ?_
    split
    · exact .error _ (by decide)
    · exact .res _ rfl
  | rdw a =>
    refine .of_withRegs fun _ => ?_
    split
    · exact .error _ (by decide)
    · exact .rwd _ rfl
  | len a => exact .of_withRegs fun _ => .res _ rfl
  | nwd a => exact .of_withRegs fun _ => .res _ rfl
  | cnt a => exact .of_withRegs fun _ => .res _ rfl
  | tzc a => exact .of_withRegs fun _ => .res _ rfl
  | eq a b => exact .of_withRegs fun _ => .res _ rfl
  | cfg =>
    have h : exec .cfg s = s.withRegs [] (s.setRes (configWord s.cfg)).ok := rfl
    rw [h]
    exact .of_withRegs fun _ => .res _ rfl
  | and d a b =>
    refine .of_withRegs fun h => ?_
    simp only [List.mem_cons, List.not_mem_nil, or_false, forall_eq_or_imp, forall_eq] at h
    refine .reg d _ rfl (fun hi => ⟨Nat.max_le.mpr ⟨hi.reg_bounded h.2.1, hi.reg_bounded h.2.2⟩, ?_⟩) h.1
    exact MaskReg.combine_padZero hW getLsbD_and_bitwise (hi.reg_padZero h.2.1) (hi.reg_padZero h.2.2)
      fun j hj => by rw [(hi.reg_padZero h.2.1).bit_eq_false (le_trans (le_max_left _ _) hj)]; rfl
  | or d a b =>
    refine .of_withRegs fun h => ?_
    simp only [List.mem_cons, List.not_mem_nil, or_false, forall_eq_or_imp, forall_eq] at h
    refine .reg d _ rfl (fun hi => ⟨Nat.max_le.mpr ⟨hi.reg_bounded h.2.1, hi.reg_bounded h.2.2⟩, ?_⟩) h.1
    exact MaskReg.combine_padZero hW getLsbD_or_bitwise (hi.reg_padZero h.2.1) (hi.reg_padZero h.2.2)
      fun j hj => by
        rw [(hi.reg_padZero h.2.1).bit_eq_false (le_trans (le_max_left _ _) hj),
          (hi.reg_padZero h.2.2).bit_eq_false (le_trans (le_max_right _ _) hj)]; rfl
  | xor d a b =>
    refine .of_withRegs fun h => ?_
    simp only [List.mem_cons, List.not_mem_nil, or_false, forall_eq_or_imp, forall_eq] at h
    refine .reg d _ rfl (fun hi => ⟨Nat.max_le.mpr ⟨hi.reg_bounded h.2.1, hi.reg_bounded h.2.2⟩, ?_⟩) h.1
    exact MaskReg.combine_padZero hW getLsbD_xor_bitwise (hi.reg_padZero h.2.1) (hi.reg_padZero h.2.2)
      fun j hj => by
        rw [(hi.reg_padZero h.2.1).bit_eq_false (le_trans (le_max_left _ _) hj),
          (hi.reg_padZero h.2.2).bit_eq_false (le_trans (le_max_right _ _) hj)]; rfl
  | anda d b =>
    refine .of_withRegs fun h => ?_
    simp only [List.mem_cons, List.not_mem_nil, or_false, forall_eq_or_imp, forall_eq] at h
    refine .reg d _ rfl (fun hi => ⟨hi.reg_bounded h.1, ?_⟩) h.1
    exact MaskReg.combine_padZero hW getLsbD_and_bitwise (hi.reg_padZero h.1) (hi.reg_padZero h.2)
      fun j hj => by rw [(hi.reg_padZero h.1).bit_eq_false hj]; rfl
  | ora d b =>
    refine .of_withRegs fun h => ?_
    simp only [List.mem_cons, List.not_mem_nil, or_false, forall_eq_or_imp, forall_eq] at h
    refine .reg d _ rfl (fun hi => ⟨Nat.max_le.mpr ⟨hi.reg_bounded h.1, hi.reg_bounded h.2⟩, ?_⟩) h.1
    exact MaskReg.combine_padZero hW getLsbD_or_bitwise (hi.reg_padZero h.1) (hi.reg_padZero h.2)
      fun j hj => by
        rw [(hi.reg_padZero h.1).bit_eq_false (le_trans (le_max_left _ _) hj),
          (hi.reg_padZero h.2).bit_eq_false (le_trans (le_max_right _ _) hj)]; rfl
  | xora d b =>
    refine .of_withRegs fun h => ?_
    simp only [List.mem_cons, List.not_mem_nil, or_false, forall_eq_or_imp, forall_eq] at h
    refine .reg d _ rfl (fun hi => ⟨Nat.max_le.mpr ⟨hi.reg_bounded h.1, hi.reg_bounded h.2⟩, ?_⟩) h.1
    exact MaskReg.combine_padZero hW getLsbD_xor_bitwise (hi.reg_padZero h.1) (hi.reg_padZero h.2)
      fun j hj => by
        rw [(hi.reg_padZero h.1).bit_eq_false (le_trans (le_max_left _ _) hj),
          (hi.reg_padZero h.2).bit_eq_false (le_trans (le_max_right _ _) hj)]; rfl
  | not d a =>
    refine .of_withRegs fun h => ?_
    simp only [List.mem_cons, List.not_mem_nil, or_false, forall_eq_or_imp, forall_eq] at h
    refine .reg d _ rfl (fun hi => ?_) h.1
    rw [MaskReg.complement_eq_ofBits hW]
    exact MaskReg.ofBits_inv (hi.reg_bounded h.2)
  | shr d a =>
    refine .of_withRegs fun h => ?_
    simp only [List.mem_cons, List.not_mem_nil, or_false, forall_eq_or_imp, forall_eq] at h
    refine .reg d _ rfl (fun hi => ?_) h.1
    rw [MaskReg.shiftRight_eq_ofBits hW (hi.reg_padZero h.2)]
    exact MaskReg.ofBits_inv (hi.reg_bounded h.2)
  | shl d a =>
    refine .of_withRegs fun h => ?_
    simp only [List.mem_cons, List.not_mem_nil, or_false, forall_eq_or_imp, forall_eq] at h
    refine .reg d _ rfl (fun hi => ?_) h.1
    rw [MaskReg.shiftLeft_eq_ofBits hW (hi.reg_padZero h.2)]
    exact MaskReg.ofBits_inv (hi.reg_bounded h.2)
  | shra d =>
    refine .of_withRegs fun h => ?_
    simp only [List.mem_singleton, forall_eq] at h
    refine .reg d _ rfl (fun hi => ?_) h
    rw [MaskReg.shiftRight_eq_ofBits hW (hi.reg_padZero h)]
    exact MaskReg.ofBits_inv (hi.reg_bounded h)
  | shla d =>
    refine .of_withRegs fun h => ?_
    simp only [List.mem_singleton, forall_eq] at h
    refine .reg d _ rfl (fun hi => ?_) h
    rw [MaskReg.shiftLeft_eq_ofBits hW (hi.reg_padZero h)]
    exact MaskReg.ofBits_inv (hi.reg_bounded h)

/-- Writing a register value that keeps the invariants keeps them for the whole register file. -/
theorem State.Inv.setReg {s : State} (h : s.Inv) (d : RegField) {T : s.Reg} (hT : T.Inv) : (s.setReg d T).Inv := by
  intro r hr
  by_cases hd : d = r ∧ d.toNat < s.cfg.nm
  · have : (s.setReg d T).reg r = T := (s.reg_setReg d r T).trans (if_pos hd)
    rw [this]; exact hT
  · have : (s.setReg d T).reg r = s.reg r := (s.reg_setReg d r T).trans (if_neg hd)
    rw [this]; exact h r hr

end Sys2Proof.Machine
end

