-- ==== Sys2Proof/Laws/PerInstr.lean ====
section
/-! SUPPORT. The per-command family OpcodeMask: the bits of a command's word that its format fixes are the bits of
its opcode value (30_encoding.md R93), one lemma per command. -/

namespace Sys2Proof

/-- A packed word under a format's mask is its opcode when every field the format leaves unused is zero. -/
theorem packCmd_and_mask (f : Format) (op : BitVec 8) (rd ra rb : RegField) (v : Bool)
    (hd : f.usesRD = false → rd = 0#4) (ha : f.usesRA = false → ra = 0#4) (hb : f.usesRB = false → rb = 0#4)
    (hv : f.usesV = false → v = false) : packCmd op rd ra rb v &&& f.mask = op.setWidth 32 := by
  have hop : op.setWidth 32 = packCmd op 0#4 0#4 0#4 false := by
    apply BitVec.eq_of_getLsbD_eq
    intro i hi
    simp only [packCmd, BitVec.getLsbD_setWidth, BitVec.getLsbD_append]
    by_cases h : i < 8
    · simp [h, hi]
    · simp [h, BitVec.getLsbD_of_ge op i (by omega)]
  have hmask : f.mask = 0x7FF#11 ++ (if f.usesV then 0#1 else 1#1) ++ (if f.usesRB then 0#4 else 0xF#4) ++
      (if f.usesRA then 0#4 else 0xF#4) ++ (if f.usesRD then 0#4 else 0xF#4) ++ 0xFF#8 := by
    cases f <;> decide
  have hall : op &&& 0xFF#8 = op := BitVec.and_allOnes
  have hz : 0#11 &&& 0x7FF#11 = 0#11 := by decide
  rw [hop, hmask]
  change (0#11 ++ BitVec.ofBool v ++ rb ++ ra ++ rd ++ op : BitVec (11 + 1 + 4 + 4 + 4 + 8)) &&&
    (0x7FF#11 ++ (if f.usesV then 0#1 else 1#1) ++ (if f.usesRB then 0#4 else 0xF#4) ++
      (if f.usesRA then 0#4 else 0xF#4) ++ (if f.usesRD then 0#4 else 0xF#4) ++ 0xFF#8) =
    0#11 ++ BitVec.ofBool false ++ 0#4 ++ 0#4 ++ 0#4 ++ op
  simp only [BitVec.and_append, hall, hz]
  have hV : BitVec.ofBool v &&& (if f.usesV then 0#1 else 1#1) = BitVec.ofBool false := by
    cases h : f.usesV
    · rw [hv h]; decide
    · simp
  have hfield : ∀ (u : Bool) (x : RegField), (u = false → x = 0#4) →
      x &&& (if u then 0#4 else 0xF#4) = 0#4 := by
    intro u x hx
    cases u
    · rw [hx rfl]; decide
    · simp
  rw [hV, hfield _ _ hd, hfield _ _ ha, hfield _ _ hb]

end Sys2Proof

/-- The word of a command, under its format's mask, is its opcode value (R93). -/
def Sys2Proof.Laws.OpcodeMask.Statement (i : Sys2Proof.Instr) : Prop :=
  Sys2Proof.encode i &&& i.format.mask = i.opcode.setWidth 32

theorem Sys2Proof.Laws.OpcodeMask.zeros (d : Sys2Proof.RegField) :
    Sys2Proof.Laws.OpcodeMask.Statement (.zeros d) :=
  Sys2Proof.packCmd_and_mask .D _ _ _ _ _
    (fun h => Bool.noConfusion h) (fun _ => rfl) (fun _ => rfl) (fun _ => rfl)

theorem Sys2Proof.Laws.OpcodeMask.ones (d : Sys2Proof.RegField) :
    Sys2Proof.Laws.OpcodeMask.Statement (.ones d) :=
  Sys2Proof.packCmd_and_mask .D _ _ _ _ _
    (fun h => Bool.noConfusion h) (fun _ => rfl) (fun _ => rfl) (fun _ => rfl)

theorem Sys2Proof.Laws.OpcodeMask.setall (d : Sys2Proof.RegField) (v : Bool) :
    Sys2Proof.Laws.OpcodeMask.Statement (.setall d v) :=
  Sys2Proof.packCmd_and_mask .DV _ _ _ _ _
    (fun h => Bool.noConfusion h) (fun _ => rfl) (fun _ => rfl) (fun h => Bool.noConfusion h)

theorem Sys2Proof.Laws.OpcodeMask.set (d : Sys2Proof.RegField) (v : Bool) :
    Sys2Proof.Laws.OpcodeMask.Statement (.set d v) :=
  Sys2Proof.packCmd_and_mask .DV _ _ _ _ _
    (fun h => Bool.noConfusion h) (fun _ => rfl) (fun _ => rfl) (fun h => Bool.noConfusion h)

theorem Sys2Proof.Laws.OpcodeMask.get (a : Sys2Proof.RegField) :
    Sys2Proof.Laws.OpcodeMask.Statement (.get a) :=
  Sys2Proof.packCmd_and_mask .A _ _ _ _ _
    (fun _ => rfl) (fun h => Bool.noConfusion h) (fun _ => rfl) (fun _ => rfl)

theorem Sys2Proof.Laws.OpcodeMask.len (a : Sys2Proof.RegField) :
    Sys2Proof.Laws.OpcodeMask.Statement (.len a) :=
  Sys2Proof.packCmd_and_mask .A _ _ _ _ _
    (fun _ => rfl) (fun h => Bool.noConfusion h) (fun _ => rfl) (fun _ => rfl)

theorem Sys2Proof.Laws.OpcodeMask.nwd (a : Sys2Proof.RegField) :
    Sys2Proof.Laws.OpcodeMask.Statement (.nwd a) :=
  Sys2Proof.packCmd_and_mask .A _ _ _ _ _
    (fun _ => rfl) (fun h => Bool.noConfusion h) (fun _ => rfl) (fun _ => rfl)

theorem Sys2Proof.Laws.OpcodeMask.cnt (a : Sys2Proof.RegField) :
    Sys2Proof.Laws.OpcodeMask.Statement (.cnt a) :=
  Sys2Proof.packCmd_and_mask .A _ _ _ _ _
    (fun _ => rfl) (fun h => Bool.noConfusion h) (fun _ => rfl) (fun _ => rfl)

theorem Sys2Proof.Laws.OpcodeMask.tzc (a : Sys2Proof.RegField) :
    Sys2Proof.Laws.OpcodeMask.Statement (.tzc a) :=
  Sys2Proof.packCmd_and_mask .A _ _ _ _ _
    (fun _ => rfl) (fun h => Bool.noConfusion h) (fun _ => rfl) (fun _ => rfl)

theorem Sys2Proof.Laws.OpcodeMask.eq (a b : Sys2Proof.RegField) :
    Sys2Proof.Laws.OpcodeMask.Statement (.eq a b) :=
  Sys2Proof.packCmd_and_mask .AB _ _ _ _ _
    (fun _ => rfl) (fun h => Bool.noConfusion h) (fun h => Bool.noConfusion h) (fun _ => rfl)

theorem Sys2Proof.Laws.OpcodeMask.mov (d a : Sys2Proof.RegField) :
    Sys2Proof.Laws.OpcodeMask.Statement (.mov d a) :=
  Sys2Proof.packCmd_and_mask .DA _ _ _ _ _
    (fun h => Bool.noConfusion h) (fun h => Bool.noConfusion h) (fun _ => rfl) (fun _ => rfl)

theorem Sys2Proof.Laws.OpcodeMask.cfg :
    Sys2Proof.Laws.OpcodeMask.Statement .cfg :=
  Sys2Proof.packCmd_and_mask .N _ _ _ _ _
    (fun _ => rfl) (fun _ => rfl) (fun _ => rfl) (fun _ => rfl)

theorem Sys2Proof.Laws.OpcodeMask.and (d a b : Sys2Proof.RegField) :
    Sys2Proof.Laws.OpcodeMask.Statement (.and d a b) :=
  Sys2Proof.packCmd_and_mask .DAB _ _ _ _ _
    (fun h => Bool.noConfusion h) (fun h => Bool.noConfusion h) (fun h => Bool.noConfusion h) (fun _ => rfl)

theorem Sys2Proof.Laws.OpcodeMask.or (d a b : Sys2Proof.RegField) :
    Sys2Proof.Laws.OpcodeMask.Statement (.or d a b) :=
  Sys2Proof.packCmd_and_mask .DAB _ _ _ _ _
    (fun h => Bool.noConfusion h) (fun h => Bool.noConfusion h) (fun h => Bool.noConfusion h) (fun _ => rfl)

theorem Sys2Proof.Laws.OpcodeMask.xor (d a b : Sys2Proof.RegField) :
    Sys2Proof.Laws.OpcodeMask.Statement (.xor d a b) :=
  Sys2Proof.packCmd_and_mask .DAB _ _ _ _ _
    (fun h => Bool.noConfusion h) (fun h => Bool.noConfusion h) (fun h => Bool.noConfusion h) (fun _ => rfl)

theorem Sys2Proof.Laws.OpcodeMask.not (d a : Sys2Proof.RegField) :
    Sys2Proof.Laws.OpcodeMask.Statement (.not d a) :=
  Sys2Proof.packCmd_and_mask .DA _ _ _ _ _
    (fun h => Bool.noConfusion h) (fun h => Bool.noConfusion h) (fun _ => rfl) (fun _ => rfl)

theorem Sys2Proof.Laws.OpcodeMask.anda (d b : Sys2Proof.RegField) :
    Sys2Proof.Laws.OpcodeMask.Statement (.anda d b) :=
  Sys2Proof.packCmd_and_mask .DB _ _ _ _ _
    (fun h => Bool.noConfusion h) (fun _ => rfl) (fun h => Bool.noConfusion h) (fun _ => rfl)

theorem Sys2Proof.Laws.OpcodeMask.ora (d b : Sys2Proof.RegField) :
    Sys2Proof.Laws.OpcodeMask.Statement (.ora d b) :=
  Sys2Proof.packCmd_and_mask .DB _ _ _ _ _
    (fun h => Bool.noConfusion h) (fun _ => rfl) (fun h => Bool.noConfusion h) (fun _ => rfl)

theorem Sys2Proof.Laws.OpcodeMask.xora (d b : Sys2Proof.RegField) :
    Sys2Proof.Laws.OpcodeMask.Statement (.xora d b) :=
  Sys2Proof.packCmd_and_mask .DB _ _ _ _ _
    (fun h => Bool.noConfusion h) (fun _ => rfl) (fun h => Bool.noConfusion h) (fun _ => rfl)

theorem Sys2Proof.Laws.OpcodeMask.shr (d a : Sys2Proof.RegField) :
    Sys2Proof.Laws.OpcodeMask.Statement (.shr d a) :=
  Sys2Proof.packCmd_and_mask .DA _ _ _ _ _
    (fun h => Bool.noConfusion h) (fun h => Bool.noConfusion h) (fun _ => rfl) (fun _ => rfl)

theorem Sys2Proof.Laws.OpcodeMask.shl (d a : Sys2Proof.RegField) :
    Sys2Proof.Laws.OpcodeMask.Statement (.shl d a) :=
  Sys2Proof.packCmd_and_mask .DA _ _ _ _ _
    (fun h => Bool.noConfusion h) (fun h => Bool.noConfusion h) (fun _ => rfl) (fun _ => rfl)

theorem Sys2Proof.Laws.OpcodeMask.shra (d : Sys2Proof.RegField) :
    Sys2Proof.Laws.OpcodeMask.Statement (.shra d) :=
  Sys2Proof.packCmd_and_mask .D _ _ _ _ _
    (fun h => Bool.noConfusion h) (fun _ => rfl) (fun _ => rfl) (fun _ => rfl)

theorem Sys2Proof.Laws.OpcodeMask.shla (d : Sys2Proof.RegField) :
    Sys2Proof.Laws.OpcodeMask.Statement (.shla d) :=
  Sys2Proof.packCmd_and_mask .D _ _ _ _ _
    (fun h => Bool.noConfusion h) (fun _ => rfl) (fun _ => rfl) (fun _ => rfl)

theorem Sys2Proof.Laws.OpcodeMask.rdw (a : Sys2Proof.RegField) :
    Sys2Proof.Laws.OpcodeMask.Statement (.rdw a) :=
  Sys2Proof.packCmd_and_mask .A _ _ _ _ _
    (fun _ => rfl) (fun h => Bool.noConfusion h) (fun _ => rfl) (fun _ => rfl)

theorem Sys2Proof.Laws.OpcodeMask.wrw (d : Sys2Proof.RegField) :
    Sys2Proof.Laws.OpcodeMask.Statement (.wrw d) :=
  Sys2Proof.packCmd_and_mask .D _ _ _ _ _
    (fun h => Bool.noConfusion h) (fun _ => rfl) (fun _ => rfl) (fun _ => rfl)
end

