-- ==== Sys2Proof/Laws/Queries.lean ====
section
/-! SUPPORT. What the aggregate queries and the comparison answer, said once in logical bits. -/

namespace Sys2Proof.Machine

variable {W NW : Nat}

theorem countP_range_add (p : Nat → Bool) (a b : Nat) :
    (List.range (a + b)).countP p = (List.range a).countP p + (List.range b).countP fun i => p (a + i) := by
  rw [List.range_add, List.countP_append, List.countP_map]; rfl

/-- The lowest index at or above `c` among the next `n` at which `p` holds. -/
theorem find?_range'_shift (p : Nat → Bool) (c n : Nat) :
    (List.range' c n).find? p = ((List.range n).find? fun b => p (c + b)).map (c + ·) := by
  rw [List.range'_eq_map_range, List.find?_map]; rfl

namespace MaskReg

/-! ## Population count -/

theorem popcount_phys (X : MaskReg W NW) (k : Nat) :
    popcount (X.phys k) = (List.range W).countP fun b => X.bit (k * W + b) := by
  unfold popcount
  exact List.countP_congr fun b hb => by rw [X.getLsbD_phys k (List.mem_range.mp hb)]

/-- The population counts of the first `n` words count the bits below `n*W`. -/
theorem sum_popcount (X : MaskReg W NW) (n : Nat) :
    ((List.range n).map fun k => popcount (X.phys k)).sum = (List.range (n * W)).countP X.bit := by
  induction n with
  | zero => simp
  | succ n ih =>
    rw [List.range_succ, List.map_append, List.sum_append, ih, Nat.add_mul, Nat.one_mul, countP_range_add]
    simp [popcount_phys]

/-- No bit is set from `len` on, so any longer range counts the logical bits only. -/
theorem PadZero.countP_bit {X : MaskReg W NW} (h : X.PadZero) {n : Nat} (hn : X.len ≤ n) :
    (List.range n).countP X.bit = (List.range X.len).countP X.bit := by
  obtain ⟨e, rfl⟩ := Nat.exists_eq_add_of_le hn
  have hz : (List.range e).countP (fun i => X.bit (X.len + i)) = 0 :=
    List.countP_eq_zero.mpr fun i _ => by simp [h.bit_eq_false (Nat.le_add_right X.len i)]
  rw [countP_range_add, hz, Nat.add_zero]

theorem len_le_nwords_mul (hW : 0 < W) (L : Nat) : L < nwords W L * W := by
  have h1 := Nat.div_add_mod' L W
  have h2 := Nat.mod_lt L hW
  rw [nwords, Nat.add_mul]; omega

/-- CNT counts the set logical bits (R162). -/
theorem PadZero.countOnes_eq {X : MaskReg W NW} (h : X.PadZero) (hW : 0 < W) :
    X.countOnes = (List.range X.len).countP X.bit := by
  rw [countOnes, sum_popcount, h.countP_bit (len_le_nwords_mul hW _).le]

/-! ## Trailing zeros -/

theorem tz_phys (X : MaskReg W NW) (k : Nat) :
    tz (X.phys k) = ((List.range W).find? fun b => X.bit (k * W + b)).getD W := by
  unfold tz
  congr 1
  have : ∀ l : List Nat, (∀ b ∈ l, b < W) →
      l.find? (fun b => (X.phys k).getLsbD b) = l.find? fun b => X.bit (k * W + b) := by
    intro l
    induction l with
    | nil => simp
    | cons b l ih =>
      intro hl
      rw [List.find?_cons, List.find?_cons, X.getLsbD_phys k (hl b (by simp)), ih fun c hc => hl c (by simp [hc])]
  exact this _ fun b hb => List.mem_range.mp hb

/-- The scan from word `c` over `n` words finds the lowest set bit at or above `c*W` among the next `n*W`. -/
theorem scanZeros_eq (X : MaskReg W NW) (n : Nat) :
    ∀ c, X.scanZeros (List.range' c n) (c * W) = (List.range' (c * W) (n * W)).find? X.bit := by
  induction n with
  | zero => intro c; simp [scanZeros]
  | succ n ih =>
    intro c
    have hsplit : List.range' (c * W) ((n + 1) * W) =
        List.range' (c * W) W ++ List.range' ((c + 1) * W) (n * W) := by
      rw [Nat.add_mul n 1 W, Nat.one_mul, Nat.add_comm (n * W) W, ← List.range'_append, Nat.add_mul]
    rw [List.range'_succ, hsplit, List.find?_append, scanZeros, tz_phys, find?_range'_shift]
    cases hf : (List.range W).find? fun b => X.bit (c * W + b) with
    | none =>
      have := ih (c + 1)
      rw [Nat.add_mul, Nat.one_mul] at this
      simp [this, Nat.add_mul]
    | some b =>
      have hb : b < W := by simpa using List.mem_of_find?_eq_some hf
      simp [hb]

theorem trailingZeros_eq (X : MaskReg W NW) :
    X.trailingZeros = ((List.range (nwords W X.len * W)).find? X.bit).getD X.len := by
  have h := scanZeros_eq X (nwords W X.len) 0
  rw [Nat.zero_mul, ← List.range_eq_range', ← List.range_eq_range'] at h
  rw [trailingZeros, h]

/-- TZC answers the lowest index that is set, or `len` when none is (R163). -/
theorem PadZero.trailingZeros_spec {X : MaskReg W NW} (h : X.PadZero) :
    X.trailingZeros ≤ X.len ∧ (∀ j < X.trailingZeros, X.bit j = false) ∧
      (X.trailingZeros < X.len → X.bit X.trailingZeros = true) := by
  rw [trailingZeros_eq]
  cases hf : (List.range (nwords W X.len * W)).find? X.bit with
  | none =>
    refine ⟨le_rfl, fun j hj => ?_, fun hlt => absurd hlt (Nat.lt_irrefl _)⟩
    by_cases hW : 0 < W
    · have := List.find?_eq_none.mp hf j
        (List.mem_range.mpr (Nat.lt_trans hj (len_le_nwords_mul hW _)))
      simpa using this
    · exact X.bit_of_ge (by simp [Nat.eq_zero_of_not_pos hW])
  | some t =>
    obtain ⟨ht, -, hlow⟩ := List.find?_range_eq_some.mp hf
    refine ⟨?_, fun j hj => by simpa using hlow j hj, fun _ => ht⟩
    by_contra hc
    rw [h.bit_eq_false (by simp at hc; omega)] at ht
    exact absurd ht (by decide)

/-! ## Equality -/

/-- EQ's comparison is value identity (R240, 10_state.md R47). -/
theorem sameMask_iff (A B : MaskReg W NW) : A.sameMask B = true ↔ A.SameValue B := by
  simp [sameMask, SameValue]

/-- Under the padding invariant value identity is equality of the registers (10_state.md R47). -/
theorem PadZero.sameValue_iff {A B : MaskReg W NW} (hA : A.PadZero) (hB : B.PadZero) :
    A.SameValue B ↔ A = B := by
  refine ⟨fun ⟨hl, hw⟩ => ext_phys hl fun k _ => ?_, fun h => h ▸ ⟨rfl, fun _ _ => rfl⟩⟩
  rw [← hA.word_eq_phys, ← hB.word_eq_phys, word, word, ← hl]
  split
  · next hk => exact hw k hk
  · rfl

end MaskReg

end Sys2Proof.Machine
end

