-- ==== Sys2Proof/Laws/Step.lean ====
section
/-! SUPPORT. What one step can do, said once. -/

namespace Sys2Proof.Machine

/-- A command word either decodes and its command is executed, or ILLEGAL_COMMAND is raised. -/
theorem runCommand_cases (s : State) :
    (∃ i, s.decoded = .ok i ∧ runCommand s = exec i s) ∨
    (∃ e, s.decoded = .error e ∧ runCommand s = .next (s.raise .illegalCommand)) := by
  unfold runCommand
  cases s.decoded with
  | ok i => exact .inl ⟨i, rfl, rfl⟩
  | error e => exact .inr ⟨e, rfl, rfl⟩

/-- A command always ends in a next state. -/
theorem runCommand_next (s : State) : ∃ t, runCommand s = .next t := by
  rcases runCommand_cases s with ⟨i, -, h⟩ | ⟨e, -, h⟩
  · rw [h]
    have hc := exec_cases i s
    generalize exec i s = o at hc
    cases hc <;> exact ⟨_, rfl⟩
  · exact ⟨_, h⟩

/-- The five things a step can be: idle, a command, a reset while idle or during a command, a refused overlap. -/
theorem step_cases (s : State) :
    (s.nextEvent = none ∧ step s = .next s) ∨
    (∃ t, s.nextEvent = some (.issue t) ∧ step s = runCommand (s.accept t)) ∨
    ((s.nextEvent = some .reset ∨ ∃ t, s.nextEvent = some (.resetDuring t)) ∧ step s = .next s.applyReset) ∨
    (∃ t u, s.nextEvent = some (.overlap t u) ∧ step s = .refused .overlappingIssue) := by
  unfold step
  cases s.nextEvent with
  | none => exact .inl ⟨rfl, rfl⟩
  | some e =>
    cases e with
    | issue t => exact .inr (.inl ⟨t, rfl, rfl⟩)
    | reset => exact .inr (.inr (.inl ⟨.inl rfl, rfl⟩))
    | resetDuring t => exact .inr (.inr (.inl ⟨.inr ⟨t, rfl⟩, rfl⟩))
    | overlap t u => exact .inr (.inr (.inr ⟨t, u, rfl, rfl⟩))

/-- After reset every register is `zeros(0)` (10_state.md R45). -/
theorem State.applyReset_reg (s : State) (r : RegField) :
    s.applyReset.reg r = MaskReg.empty s.cfg.W s.cfg.nw := by
  unfold State.reg State.applyReset
  by_cases h : r.toNat < s.cfg.nm <;> simp [h]

theorem State.resetOf_reg (cfg : Params) (r : RegField) :
    (State.resetOf cfg).reg r = MaskReg.empty cfg.W cfg.nw := by
  unfold State.reg State.resetOf
  by_cases h : r.toNat < cfg.nm <;> simp [h]

/-- A run of one step more, when its first step answers a next state. -/
theorem run_succ_of_next (n : Nat) (s t : State) (h : step s = .next t) :
    Sys2Proof.core.run (n + 1) s = Sys2Proof.core.run n t := by
  have h' : Sys2Proof.core.step s = .next t := h
  refine (Host.Core.run.eq_2 Sys2Proof.core s n).trans ?_
  rw [h']

/-- Writing a register twice and ending the command: the later value stands. -/
theorem State.setReg_ok_setReg (s : State) (d : RegField) (T U : s.Reg) :
    State.ok (State.setReg { s with m := s.m.setIfInBounds d.toNat T, status := 0#4 } d U) =
      { s with m := s.m.setIfInBounds d.toNat U, status := 0#4 } :=
  congrArg (fun m => ({ s with m := m, status := 0#4 } : State)) (s.setReg_setReg d T U)

/-- A step that issues `t` runs the command on the ports. -/
theorem step_issue {s : State} {t : Transaction s.cfg.W} (h : s.script[s.pos]? = some (.issue t)) :
    step s = runCommand (s.accept t) := by
  unfold step State.nextEvent
  rw [h]

/-- A command changes registers only: not the build, the ports, the host's list or the position in it. -/
theorem runCommand_shape (s : State) :
    ∃ m st r w, runCommand s = .next { s with m := m, status := st, res := r, rwd := w } := by
  rcases runCommand_cases s with ⟨i, -, h⟩ | ⟨e, -, h⟩
  · rw [h]
    have hc := exec_cases i s
    generalize exec i s = o at hc
    cases hc with
    | error c _ => exact ⟨s.m, _, s.res, s.rwd, rfl⟩
    | reg d T _ _ _ => exact ⟨_, _, s.res, s.rwd, rfl⟩
    | res v _ => exact ⟨s.m, _, _, s.rwd, rfl⟩
    | rwd x _ => exact ⟨s.m, _, s.res, _, rfl⟩
  · rw [h]; exact ⟨s.m, _, s.res, s.rwd, rfl⟩

end Sys2Proof.Machine
end

