-- ==== Sys2Proof/Tests/Slice0.lean ====
section
/-! SUPPORT. Tests of one step each. Expected results come from spec/95_test_vectors.md (the vector's id is in the
test's comment), spec/opcode_table.json and 30_encoding.md; then, for every obligation with hypotheses, one named
witness that meets them all, at the boundary values of its clauses. -/

namespace Sys2Proof.Tests

open Sys2Proof Sys2Proof.Machine

/-! ## Helpers -/

/-- Register values as the vectors list them: register, `len`, words. -/
abbrev Listing := List (RegField × Nat × List Nat)

/-- The value a listing gives register `r`, `zeros(0)` where it gives none. -/
def valueOf (l : Listing) (r : RegField) : MaskReg 8 4 :=
  match l.find? (·.1 == r) with
  | some x => MaskReg.build 8 4 x.2.1 fun k => BitVec.ofNat 8 (x.2.2.getD k 0)
  | none => MaskReg.empty 8 4

/-- The reference build with the listed registers, everything else at reset, and `es` as the host's list. -/
def withEvents (l : Listing) (es : List (HostEvent 8)) : State where
  cfg := Params.reference
  m := tabulate 4 fun k => valueOf l (BitVec.ofNat 4 k)
  status := 0#4
  res := 0#64
  rwd := 0#8
  port := ⟨0#32, 0#64, 0#8⟩
  script := es
  pos := 0

/-- A transaction, by numbers. -/
def cmd (c o d : Nat) : Transaction 8 := ⟨BitVec.ofNat 32 c, BitVec.ofNat 64 o, BitVec.ofNat 8 d⟩

/-- From the registers `bef`, the command `c` with operands `o` and `d` leaves the registers `aft` (unlisted ones as
before), `STATUS = st`, `RES = res` and `RWD = rwd`, and changes nothing else. -/
def gives (bef : Listing) (c o d : Nat) (aft : Listing) (st res rwd : Nat) : Bool :=
  match step (withEvents bef [.issue (cmd c o d)]) with
  | .next s => decide (s = { withEvents (aft ++ bef) [.issue (cmd c o d)] with
      status := BitVec.ofNat 4 st, res := BitVec.ofNat 64 res, rwd := BitVec.ofNat 8 rwd, port := cmd c o d, pos := 1 })
  | _ => false

/-! ## One step per command: the spec's vectors -/

/-- V3.6: ZEROS M0, 31. -/
theorem test_zeros_lmax :
    gives [] 0x00000001 31 0
      [(0#4, 31, [0x00, 0x00, 0x00, 0x00])] 0 0 0 = true := by decide

/-- V3.13: ZEROS M0, 32. -/
theorem test_zeros_capacity :
    gives [(0#4, 5, [0x02, 0x00, 0x00, 0x00])] 0x00000001 32 0
      [] 2 0 0 = true := by decide

/-- V3.12: ONES M1, 31. -/
theorem test_ones_lmax :
    gives [] 0x00000102 31 0
      [(1#4, 31, [0xFF, 0xFF, 0xFF, 0x7F])] 0 0 0 = true := by decide

/-- V3.14: ONES M0, 0xFFFFFFFFFFFFFFFF. -/
theorem test_ones_capacity :
    gives [(0#4, 5, [0x02, 0x00, 0x00, 0x00])] 0x00000002 0xFFFFFFFFFFFFFFFF 0
      [] 2 0 0 = true := by decide

/-- V3.15: SETALL M1, 1. -/
theorem test_setall_one :
    gives [(1#4, 10, [0x12, 0x01, 0x00, 0x00])] 0x00100103 0 0
      [(1#4, 10, [0xFF, 0x03, 0x00, 0x00])] 0 0 0 = true := by decide

/-- V3.17: SETALL M1, 1. -/
theorem test_setall_aligned :
    gives [(1#4, 16, [0x01, 0x80, 0x00, 0x00])] 0x00100103 0 0
      [(1#4, 16, [0xFF, 0xFF, 0x00, 0x00])] 0 0 0 = true := by decide

/-- V3.19: MOV M1, M0. -/
theorem test_mov :
    gives [(0#4, 3, [0x05, 0x00, 0x00, 0x00])] 0x0000010B 0 0
      [(1#4, 3, [0x05, 0x00, 0x00, 0x00])] 0 0 0 = true := by decide

/-- V4.12: SET M0, 15, 1. -/
theorem test_set_last_of_word :
    gives [(0#4, 16, [0x00, 0x00, 0x00, 0x00])] 0x00100004 15 0
      [(0#4, 16, [0x00, 0x80, 0x00, 0x00])] 0 0 0 = true := by decide

/-- V4.4: SET M0, 9, 0. -/
theorem test_set_clear :
    gives [(0#4, 10, [0x08, 0x02, 0x00, 0x00])] 0x00000004 9 0
      [(0#4, 10, [0x08, 0x00, 0x00, 0x00])] 0 0 0 = true := by decide

/-- V4.7: GET M0, 9. -/
theorem test_get_last :
    gives [(0#4, 10, [0x08, 0x02, 0x00, 0x00])] 0x00000005 9 0
      [] 0 1 0 = true := by decide

/-- V4.10: GET M0, 15. -/
theorem test_get_reserved_bits :
    gives [(0#4, 10, [0x08, 0x02, 0x00, 0x00])] 0x00000005 15 0
      [] 1 0 0 = true := by decide

/-- V5.1: LEN M0. -/
theorem test_len :
    gives [(0#4, 14, [0x20, 0x00, 0x00, 0x00])] 0x00000006 0 0
      [] 0 14 0 = true := by decide

/-- V5.4: NWD M0. -/
theorem test_nwd_aligned :
    gives [(0#4, 8, [0x00, 0x00, 0x00, 0x00])] 0x00000007 0 0
      [] 0 2 0 = true := by decide

/-- V5.6: CNT M0. -/
theorem test_cnt_all :
    gives [(0#4, 31, [0xFF, 0xFF, 0xFF, 0x7F])] 0x00000008 0 0
      [] 0 31 0 = true := by decide

/-- V5.9: TZC M0. -/
theorem test_tzc_none :
    gives [(0#4, 8, [0x00, 0x00, 0x00, 0x00])] 0x00000009 0 0
      [] 0 8 0 = true := by decide

/-- V5.13: TZC M0. -/
theorem test_tzc_second_word :
    gives [(0#4, 14, [0x00, 0x04, 0x00, 0x00])] 0x00000009 0 0
      [] 0 10 0 = true := by decide

/-- V5.14: CFG. -/
theorem test_cfg :
    gives [] 0x0000000C 0 0
      [] 0 0x0004000000040008 0 = true := by decide

/-- V6.18: AND M2, M1, M0. -/
theorem test_and_max_length :
    gives [(0#4, 3, [0x07, 0x00, 0x00, 0x00]), (1#4, 12, [0xFF, 0x0F, 0x00, 0x00])] 0x00001210 0 0
      [(2#4, 12, [0x07, 0x00, 0x00, 0x00])] 0 0 0 = true := by decide

/-- V6.4: OR M2, M0, M1. -/
theorem test_or_shorter_second :
    gives [(0#4, 10, [0x00, 0x02, 0x00, 0x00]), (1#4, 3, [0x01, 0x00, 0x00, 0x00])] 0x00010211 0 0
      [(2#4, 10, [0x01, 0x02, 0x00, 0x00])] 0 0 0 = true := by decide

/-- V6.7: XOR M2, M0, M1. -/
theorem test_xor_lengths :
    gives [(0#4, 10, [0xFF, 0x03, 0x00, 0x00]), (1#4, 16, [0xFF, 0xFF, 0x00, 0x00])] 0x00010212 0 0
      [(2#4, 16, [0x00, 0xFC, 0x00, 0x00])] 0 0 0 = true := by decide

/-- V6.8: NOT M1, M0. -/
theorem test_not_aligned :
    gives [(0#4, 8, [0x00, 0x00, 0x00, 0x00])] 0x00000113 0 0
      [(1#4, 8, [0xFF, 0x00, 0x00, 0x00])] 0 0 0 = true := by decide

/-- V6.9: NOT M0, M0. -/
theorem test_not_in_place :
    gives [(0#4, 10, [0x01, 0x02, 0x00, 0x00])] 0x00000013 0 0
      [(0#4, 10, [0xFE, 0x01, 0x00, 0x00])] 0 0 0 = true := by decide

/-- V6.12: ANDA M0, M1. -/
theorem test_anda_keeps_length :
    gives [(0#4, 3, [0x07, 0x00, 0x00, 0x00]), (1#4, 12, [0xFF, 0x0F, 0x00, 0x00])] 0x00010014 0 0
      [(0#4, 3, [0x07, 0x00, 0x00, 0x00])] 0 0 0 = true := by decide

/-- V6.14: ORA M0, M1. -/
theorem test_ora_grows :
    gives [(0#4, 3, [0x05, 0x00, 0x00, 0x00]), (1#4, 4, [0x0D, 0x00, 0x00, 0x00])] 0x00010015 0 0
      [(0#4, 4, [0x0D, 0x00, 0x00, 0x00])] 0 0 0 = true := by decide

/-- V6.16: XORA M0, M1. -/
theorem test_xora_grows :
    gives [(0#4, 4, [0x0D, 0x00, 0x00, 0x00]), (1#4, 6, [0x3F, 0x00, 0x00, 0x00])] 0x00010016 0 0
      [(0#4, 6, [0x32, 0x00, 0x00, 0x00])] 0 0 0 = true := by decide

/-- V7.3: SHR M1, M0, 3. -/
theorem test_shr_across :
    gives [(0#4, 14, [0x21, 0x24, 0x00, 0x00])] 0x00000120 3 0
      [(1#4, 14, [0x84, 0x04, 0x00, 0x00])] 0 0 0 = true := by decide

/-- V7.6: SHR M1, M0, 9. -/
theorem test_shr_word_and_bit :
    gives [(0#4, 14, [0x21, 0x24, 0x00, 0x00])] 0x00000120 9 0
      [(1#4, 14, [0x12, 0x00, 0x00, 0x00])] 0 0 0 = true := by decide

/-- V7.14: SHL M1, M0, 3. -/
theorem test_shl_across :
    gives [(0#4, 14, [0x21, 0x24, 0x00, 0x00])] 0x00000121 3 0
      [(1#4, 14, [0x08, 0x21, 0x00, 0x00])] 0 0 0 = true := by decide

/-- V7.24: SHL M1, M0, 9. -/
theorem test_shl_word_and_bit :
    gives [(0#4, 20, [0x01, 0x00, 0x00, 0x00])] 0x00000121 9 0
      [(1#4, 20, [0x00, 0x02, 0x00, 0x00])] 0 0 0 = true := by decide

/-- V7.25: SHRA M0, 3. -/
theorem test_shra :
    gives [(0#4, 14, [0x20, 0x04, 0x00, 0x00])] 0x00000022 3 0
      [(0#4, 14, [0x84, 0x00, 0x00, 0x00])] 0 0 0 = true := by decide

/-- V7.27: SHLA M0, 5. -/
theorem test_shla_tail :
    gives [(0#4, 12, [0xFF, 0x0F, 0x00, 0x00])] 0x00000023 5 0
      [(0#4, 12, [0xE0, 0x0F, 0x00, 0x00])] 0 0 0 = true := by decide

/-- V8.4: EQ M0, M1. -/
theorem test_eq_words :
    gives [(0#4, 8, [0x08, 0x00, 0x00, 0x00]), (1#4, 8, [0x10, 0x00, 0x00, 0x00])] 0x0001000A 0 0
      [] 0 0 0 = true := by decide

/-- V8.5: EQ M0, M1. -/
theorem test_eq_lengths :
    gives [(0#4, 12, [0x00, 0x00, 0x00, 0x00]), (1#4, 15, [0x00, 0x00, 0x00, 0x00])] 0x0001000A 0 0
      [] 0 0 0 = true := by decide

/-- V9.4: RDW M0, 1. -/
theorem test_rdw_reserved :
    gives [(0#4, 8, [0xFF, 0x00, 0x00, 0x00])] 0x00000030 1 0
      [] 0 0 0x00 = true := by decide

/-- V9.3: RDW M0, 2. -/
theorem test_rdw_bound :
    gives [(0#4, 10, [0xA5, 0x03, 0x00, 0x00])] 0x00000030 2 0
      [] 1 0 0 = true := by decide

/-- V9.6: WRW M0, 1, 0xFF. -/
theorem test_wrw_tail :
    gives [(0#4, 10, [0x00, 0x00, 0x00, 0x00])] 0x00000031 1 0xFF
      [(0#4, 10, [0x00, 0x03, 0x00, 0x00])] 0 0 0 = true := by decide

/-- V9.8: WRW M0, 1, 0xFF. -/
theorem test_wrw_reserved :
    gives [(0#4, 8, [0x00, 0x00, 0x00, 0x00])] 0x00000031 1 0xFF
      [(0#4, 8, [0x00, 0x00, 0x00, 0x00])] 0 0 0 = true := by decide

/-- V10.3: OP 0x0D unassigned. -/
theorem test_illegal_opcode :
    gives [(0#4, 5, [0x02, 0x00, 0x00, 0x00])] 0x0000000D 0 0
      [] 3 0 0 = true := by decide

/-- V10.12: LEN with RSV bit 31 set. -/
theorem test_illegal_rsv :
    gives [(0#4, 5, [0x02, 0x00, 0x00, 0x00])] 0x80000006 0 0
      [] 3 0 0 = true := by decide

/-- V10.9: CFG with RA = 15. -/
theorem test_illegal_unused :
    gives [(0#4, 5, [0x02, 0x00, 0x00, 0x00])] 0x0000F00C 0 0
      [] 3 0 0 = true := by decide

/-- V10.13: ZEROS M4, 100: both RD >= NM and size > L_MAX. -/
theorem test_illegal_index_first :
    gives [(0#4, 5, [0x02, 0x00, 0x00, 0x00])] 0x00000401 100 0
      [] 3 0 0 = true := by decide

/-! ## Reset -/

/-- V11.1: after `RST` every register is `zeros(0)` and the result registers are 0; the position moves on. -/
theorem test_reset_clears :
    (match step { withEvents [(0#4, 14, [0x20, 0x04]), (3#4, 8, [0xFF])] [.reset] with
        status := 3#4, res := 5#64, rwd := 0xA5#8 } with
      | .next s => decide (s = { withEvents [] [.reset] with pos := 1 })
      | _ => false) = true := by decide

/-- R300: a command in progress at `RST` has no effect. -/
theorem test_reset_abandons_command :
    (match step (withEvents [(0#4, 14, [0x20, 0x04])] [.resetDuring (cmd 0x00000002 5 0)]) with
      | .next s => decide (s = { withEvents [] [.resetDuring (cmd 0x00000002 5 0)] with pos := 1 })
      | _ => false) = true := by decide

/-- R45: `State.reset` is the vectors' reset state. -/
theorem test_reset_state : State.reset = withEvents [] [] := by decide

/-- R313: an issue while a command is outstanding is refused. -/
theorem test_overlap_refused :
    step (withEvents [] [.overlap (cmd 0x00000006 0 0) (cmd 0x00000006 0 0)]) = .refused .overlappingIssue := rfl

/-! ## The index decoder, word counts and tail masks -/

/-- V1: word index and offset, at `W` = 8, 16, 64 and 128. -/
theorem test_index_decoder :
    (widx 8 7, off 8 7) = (0, 7) ∧ (widx 8 8, off 8 8) = (1, 0) ∧ (widx 8 31, off 8 31) = (3, 7) ∧
    (widx 16 17, off 16 17) = (1, 1) ∧ (widx 64 100, off 64 100) = (1, 36) ∧
    (widx 128 128, off 128 128) = (1, 0) := by decide

/-- V2: `nwords` and `tailmask`, word-aligned lengths among them. -/
theorem test_tail_masks :
    nwords 8 0 = 1 ∧ nwords 8 8 = 2 ∧ nwords 8 31 = 4 ∧ nwords 64 100 = 2 ∧
    tailmask 8 8 = 0x00#8 ∧ tailmask 8 14 = 0x3F#8 ∧ tailmask 8 31 = 0x7F#8 ∧ tailmask 32 31 = 0x7FFFFFFF#32 ∧
    tailmask 64 100 = 0x0000000FFFFFFFFF#64 ∧ tailmask 128 127 = 0x7FFFFFFFFFFFFFFFFFFFFFFFFFFFFFFF#128 := by decide

/-- V4.2's render (R15): bit 0 first. -/
theorem test_render : (valueOf [(0#4, 10, [0x00, 0x02])] 0#4).render = "0000000001" := by decide

/-! ## Decoding -/

/-- The opcode table: match, mask, and the command of the word `match`, whose fields are all 0. -/
def table : List (Nat × Nat × Instr) :=
  [(0x00000001, 0xFFFFF0FF, .zeros 0),
   (0x00000002, 0xFFFFF0FF, .ones 0),
   (0x00000003, 0xFFEFF0FF, .setall 0 false),
   (0x00000004, 0xFFEFF0FF, .set 0 false),
   (0x00000005, 0xFFFF0FFF, .get 0),
   (0x00000006, 0xFFFF0FFF, .len 0),
   (0x00000007, 0xFFFF0FFF, .nwd 0),
   (0x00000008, 0xFFFF0FFF, .cnt 0),
   (0x00000009, 0xFFFF0FFF, .tzc 0)] ++
  [(0x0000000A, 0xFFF00FFF, .eq 0 0),
   (0x0000000B, 0xFFFF00FF, .mov 0 0),
   (0x0000000C, 0xFFFFFFFF, .cfg),
   (0x00000010, 0xFFF000FF, .and 0 0 0),
   (0x00000011, 0xFFF000FF, .or 0 0 0),
   (0x00000012, 0xFFF000FF, .xor 0 0 0),
   (0x00000013, 0xFFFF00FF, .not 0 0),
   (0x00000014, 0xFFF0F0FF, .anda 0 0),
   (0x00000015, 0xFFF0F0FF, .ora 0 0)] ++
  [(0x00000016, 0xFFF0F0FF, .xora 0 0),
   (0x00000020, 0xFFFF00FF, .shr 0 0),
   (0x00000021, 0xFFFF00FF, .shl 0 0),
   (0x00000022, 0xFFFFF0FF, .shra 0),
   (0x00000023, 0xFFFFF0FF, .shla 0),
   (0x00000030, 0xFFFF0FFF, .rdw 0),
   (0x00000031, 0xFFFFF0FF, .wrw 0)]

/-- Each row's `match` decodes to its command, which encodes to it, and its format has the row's mask. -/
theorem test_table_rows : ∀ r ∈ table, decode 4 (BitVec.ofNat 32 r.1) = .ok r.2.2 ∧
    encode r.2.2 = BitVec.ofNat 32 r.1 ∧ r.2.2.format.mask = BitVec.ofNat 32 r.2.1 := by decide

/-- No word matches two rows: two rows differ in a bit both masks fix. -/
theorem test_rows_disjoint : table.Pairwise fun r q => r.1 &&& (r.2.1 &&& q.2.1) ≠ q.1 &&& (r.2.1 &&& q.2.1) := by
  decide

/-- The map the statements use is the table's: opcode value and format, in some order. -/
theorem test_opcode_map :
    opcodeMap.length = table.length ∧ ∀ r ∈ table, (r.1, r.2.2.format) ∈ opcodeMap := by decide

/-! Every command's word written out field by field from R91: `RSV`, `V`, `RB`, `RA`, `RD`, `OP`. -/

theorem test_decode_words_a :
    decode 16 0b00000000000_0_0000_0000_1101_00000001#32 = .ok (.zeros 13) ∧
    decode 16 0b00000000000_0_0000_0000_1101_00000010#32 = .ok (.ones 13) ∧
    decode 16 0b00000000000_1_0000_0000_1101_00000011#32 = .ok (.setall 13 true) ∧
    decode 16 0b00000000000_1_0000_0000_1101_00000100#32 = .ok (.set 13 true) ∧
    decode 16 0b00000000000_0_0000_0110_0000_00000101#32 = .ok (.get 6) ∧
    decode 16 0b00000000000_0_0000_0110_0000_00000110#32 = .ok (.len 6) ∧
    decode 16 0b00000000000_0_0000_0110_0000_00000111#32 = .ok (.nwd 6) := by decide

theorem test_decode_words_b :
    decode 16 0b00000000000_0_0000_0110_0000_00001000#32 = .ok (.cnt 6) ∧
    decode 16 0b00000000000_0_0000_0110_0000_00001001#32 = .ok (.tzc 6) ∧
    decode 16 0b00000000000_0_1011_0110_0000_00001010#32 = .ok (.eq 6 11) ∧
    decode 16 0b00000000000_0_0000_0110_1101_00001011#32 = .ok (.mov 13 6) ∧
    decode 16 0b00000000000_0_0000_0000_0000_00001100#32 = .ok (.cfg) ∧
    decode 16 0b00000000000_0_1011_0110_1101_00010000#32 = .ok (.and 13 6 11) ∧
    decode 16 0b00000000000_0_1011_0110_1101_00010001#32 = .ok (.or 13 6 11) := by decide

theorem test_decode_words_c :
    decode 16 0b00000000000_0_1011_0110_1101_00010010#32 = .ok (.xor 13 6 11) ∧
    decode 16 0b00000000000_0_0000_0110_1101_00010011#32 = .ok (.not 13 6) ∧
    decode 16 0b00000000000_0_1011_0000_1101_00010100#32 = .ok (.anda 13 11) ∧
    decode 16 0b00000000000_0_1011_0000_1101_00010101#32 = .ok (.ora 13 11) ∧
    decode 16 0b00000000000_0_1011_0000_1101_00010110#32 = .ok (.xora 13 11) ∧
    decode 16 0b00000000000_0_0000_0110_1101_00100000#32 = .ok (.shr 13 6) ∧
    decode 16 0b00000000000_0_0000_0110_1101_00100001#32 = .ok (.shl 13 6) := by decide

theorem test_decode_words_d :
    decode 16 0b00000000000_0_0000_0000_1101_00100010#32 = .ok (.shra 13) ∧
    decode 16 0b00000000000_0_0000_0000_1101_00100011#32 = .ok (.shla 13) ∧
    decode 16 0b00000000000_0_0000_0110_0000_00110000#32 = .ok (.rdw 6) ∧
    decode 16 0b00000000000_0_0000_0000_1101_00110001#32 = .ok (.wrw 13) := by decide

/-- R102's decoding examples and V10's words: rejected, each by its name. -/
theorem test_decode_rejects :
    decode 4 0x00000000#32 = .error .opcode ∧ decode 4 0x000000FF#32 = .error .opcode ∧
    decode 4 0x0000000D#32 = .error .opcode ∧ decode 4 0x00200004#32 = .error .reservedBits ∧
    decode 4 0x80000006#32 = .error .reservedBits ∧ decode 4 0x00001001#32 = .error .unusedField ∧
    decode 4 0x00100113#32 = .error .unusedField ∧ decode 4 0x00000401#32 = .error .registerIndex ∧
    decode 4 0x00040010#32 = .error .registerIndex ∧ decode 5 0x00040010#32 = .ok (.and 0 0 4) := by decide

/-- The register check of WellFormed refuses an ill-formed term in each position it looks at: RD, RA, RB. -/
theorem test_wellFormed_refuses :
    (¬(Instr.zeros 4).WellFormed 4) ∧ (¬(Instr.set 15 true).WellFormed 4) ∧ (¬(Instr.len 4).WellFormed 4) ∧
    (¬(Instr.mov 0 4).WellFormed 4) ∧ (¬(Instr.and 0 0 4).WellFormed 4) ∧ (¬(Instr.ora 0 4).WellFormed 4) ∧
    (¬(Instr.eq 4 0).WellFormed 4) ∧ (Instr.and 3 3 3).WellFormed 4 ∧ Instr.cfg.WellFormed 4 := by decide

/-- What the host asks of a table row: the decoder reads it, and the next step after reset runs it. -/
theorem test_fetch_word :
    decodeTableWord 32 0x00000006 = some (.len 0) ∧ decodeTableWord 8 0x0C = some .cfg ∧
    (match step (State.reset.withFetchWord 32 0x0000000C) with
      | .next s => decide (s.res = 0x0004000000040008#64 ∧ s.status = 0#4 ∧ s.pos = 1)
      | _ => false) = true := by decide

/-- R2's example. -/
theorem test_ident : Params.reference.ident = "NBM-CMD1-W8-N4-R4" := by decide

/-! ## Witnesses: the hypotheses of the obligations can be met, together -/

/-- A state whose registers all differ: two words and a partial tail, a word-aligned length, a short one, and
`zeros(0)`; `c`, `o` and `d` on the ports and next in the host's list. -/
def sample (c o d : Nat) : State :=
  { withEvents [(0#4, 14, [0x20, 0x04]), (1#4, 8, [0xA5, 0x00]), (2#4, 3, [0x05])] [.issue (cmd c o d)] with
    port := cmd c o d, res := 7#64, rwd := 0x11#8 }

/-- Three named registers of the reference build, the last one among them. -/
theorem witness_registers :
    (0#4).toNat < (sample 0 0 0).cfg.nm ∧ (1#4).toNat < (sample 0 0 0).cfg.nm ∧
    (3#4).toNat < (sample 0 0 0).cfg.nm := by decide

theorem sample_inv (c o d : Nat) : (sample c o d).Inv := by
  have h : ∀ r : RegField, r.toNat < 4 → (((sample 0 0 0).reg r).Inv : Prop) := by decide
  exact h

theorem witness_ResetStateValues : (3#4 : RegField).toNat < Params.reference.nm ∧ 3 < Params.reference.nw := by decide

theorem witness_ResetEventClearsAllState :
    ∃ s t : State, s.nextEvent = some .reset ∧ ∃ u, t.nextEvent = some (.resetDuring u) :=
  ⟨withEvents [] [.reset], withEvents [] [.resetDuring (cmd 0x06 0 0)], rfl, cmd 0x06 0 0, rfl⟩

/-- `CNT M1` issued next, and it decodes. -/
theorem witness_StepRunsDecodedCommand :
    (sample 0x00001008 0 0).script[(sample 0x00001008 0 0).pos]? = some (.issue (cmd 0x00001008 0 0)) ∧
    decode (sample 0x00001008 0 0).cfg.nm (cmd 0x00001008 0 0).cmd = .ok (.cnt 1) := ⟨rfl, by decide⟩

theorem witness_CommandStepAdvancesPositionByOne :
    (sample 0xFF 0 0).script[(sample 0xFF 0 0).pos]? = some (.issue (cmd 0xFF 0 0)) := rfl

/-- An illegal word of each of the four kinds, issued next. -/
theorem witness_IllegalWordOnlySetsStatus :
    (sample 0x0D 0 0).script[(sample 0x0D 0 0).pos]? = some (.issue (cmd 0x0D 0 0)) ∧
    IllegalWord 4 0x0000000D#32 ∧ IllegalWord 4 0x00200004#32 ∧ IllegalWord 4 0x00100013#32 ∧
    IllegalWord 4 0x00040010#32 :=
  ⟨rfl, .inl (by decide), .inr (.inl (by decide)), .inr (.inr (.inl (by decide))), .inr (.inr (.inr (by decide)))⟩

theorem witness_IdleStepHoldsState : State.reset.script[State.reset.pos]? = none := rfl

theorem witness_OnlyOverlappingIssueIsRefused :
    (∃ t u, (withEvents [] [.overlap (cmd 6 0 0) (cmd 6 0 0)]).nextEvent = some (.overlap t u)) ∧
    ¬∃ t u, State.reset.nextEvent = some (.overlap t u) :=
  ⟨⟨_, _, rfl⟩, fun ⟨_, _, h⟩ => by cases h⟩

theorem witness_StepKeepsBuildParameters : ∃ s', step (sample 0x00000313 0 0) = .next s' := ⟨_, rfl⟩

/-- `NOT M3, M0` from a state with the invariant. -/
theorem witness_StepKeepsPaddingZero :
    (sample 0x00000313 0 0).Inv ∧ ∃ s', step (sample 0x00000313 0 0) = .next s' := ⟨sample_inv _ _ _, _, rfl⟩

theorem witness_EveryCommandIsSafe : (sample 0 0 0).Inv := sample_inv _ _ _

theorem witness_ErrorWritesOnlyStatus :
    ∃ s', runCommand (sample 0x00000005 14 0) = .next s' ∧ s'.status ≠ 0#4 := ⟨_, rfl, by decide⟩

/-- Codes 1, 2 and 3 each occur, at the first operand that causes them, and code 0 one below. -/
theorem witness_StatusCodeNamesItsCause :
    (∃ s', runCommand (sample 0x00000005 14 0) = .next s' ∧ s'.status = 1#4) ∧
    (∃ s', runCommand (sample 0x00000005 13 0) = .next s' ∧ s'.status = 0#4) ∧
    (∃ s', runCommand (sample 0x00001030 2 0) = .next s' ∧ s'.status = 1#4) ∧
    (∃ s', runCommand (sample 0x00001030 1 0) = .next s' ∧ s'.status = 0#4) ∧
    (∃ s', runCommand (sample 0x00000001 32 0) = .next s' ∧ s'.status = 2#4) ∧
    (∃ s', runCommand (sample 0x00000001 31 0) = .next s' ∧ s'.status = 0#4) ∧
    (∃ s', runCommand (sample 0x00000401 32 0) = .next s' ∧ s'.status = 3#4) :=
  ⟨⟨_, rfl, by decide⟩, ⟨_, rfl, by decide⟩, ⟨_, rfl, by decide⟩, ⟨_, rfl, by decide⟩, ⟨_, rfl, by decide⟩,
    ⟨_, rfl, by decide⟩, ⟨_, rfl, by decide⟩⟩

/-- Every kind of destination: a mask register, `RES`, `RWD`; and a command that writes neither result. -/
theorem witness_CommandWritesOnlyItsDestination :
    (Instr.not 3 0).dest = some 3 ∧ (Instr.not 3 0).writesRes = false ∧ (Instr.not 3 0).writesRwd = false ∧
    (Instr.cnt 0).writesRes = true ∧ (Instr.rdw 0).writesRwd = true ∧ 2 < (sample 0 0 0).cfg.nm ∧
    ∀ d, (Instr.not 3 0).dest = some d → d.toNat ≠ 2 := by
  refine ⟨rfl, rfl, rfl, rfl, rfl, by decide, ?_⟩
  rintro _ ⟨⟩
  decide

/-- Two states that agree on the source `M1` of `NOT M3, M1` and on nothing else, and a command that succeeds. -/
theorem witness_CommandReadsOnlyItsSources :
    (∀ x ∈ (Instr.not 3 1).sources,
      State.reg { sample 0 0 0 with m := (withEvents [(1#4, 8, [0xA5, 0x00])] []).m, status := 3#4, res := 0#64, rwd := 0#8 } x =
        (sample 0 0 0).reg x) ∧
    State.reg { sample 0 0 0 with m := (withEvents [(1#4, 8, [0xA5, 0x00])] []).m, status := 3#4, res := 0#64, rwd := 0#8 } 0#4 ≠
      (sample 0 0 0).reg 0#4 ∧
    (∃ s', exec (.not 3 1) (sample 0 0 0) = .next s' ∧ s'.status = 0#4) :=
  ⟨by decide, by decide, _, rfl, by decide⟩

theorem witness_OnlyWrwReadsWdata : ∀ d, Instr.len 0 ≠ .wrw d := by decide

theorem witness_OtherCommandsIgnoreOpnd : (Instr.xora 0 1).readsOpnd = false := rfl

theorem witness_QueriesAreIdempotent : (Instr.tzc 0).writesRes = true ∧ (Instr.rdw 0).writesRwd = true := ⟨rfl, rfl⟩

theorem witness_UnnamedRegisterRaisesIllegalCommand : ¬(Instr.and 0 1 4).WellFormed (sample 0 0 0).cfg.nm := by decide

theorem witness_DecodeOfEncode : (Instr.and 3 2 1).WellFormed 4 := by decide

theorem witness_EncodeOfDecode : decode 4 0x00012310#32 = .ok (.and 3 2 1) := by decide

theorem witness_DecoderRejectsExactlyIllegalWords :
    IllegalWord 4 0x00000401#32 ∧ ∃ w : BitVec 32, ∃ i, decode 4 w = .ok i :=
  ⟨.inr (.inr (.inr (by decide))), 0x00000301#32, .zeros 3, by decide⟩

theorem witness_WordMatchesItsFormatMask :
    ((0x13#8).toNat, Format.DA) ∈ opcodeMap ∧ (0x0000F313#32 &&& Format.DA.mask) = (0x13#8).setWidth 32 ∧
    (0x0010F313#32 &&& Format.DA.mask) ≠ (0x13#8).setWidth 32 := by decide

/-- A word-aligned length, and one that is not. -/
theorem witness_TailMaskHasLowBits : 16 % Params.reference.W = 0 ∧ 31 % Params.reference.W = 7 := by decide

/-- Lookups in `M0` at its tail word, above it, and past the last physical word. -/
theorem witness_WordLookupIsImplicitZero :
    1 < 4 ∧ 1 < ((sample 0 0 0).reg 0#4).len / 8 + 1 ∧ ((sample 0 0 0).reg 0#4).len / 8 + 1 ≤ 2 ∧ 4 ≤ 4 ∧
    ((sample 0 0 0).reg 0#4).PadZero := by decide

/-- A value of length 14 with padding bits set in its tail word and `ZERO` above it. -/
theorem witness_TailfixClearsPadding :
    (∀ k, 14 / 8 < k → (valueOf [(0#4, 14, [0xFF, 0xFF])] 0#4).phys k = 0#8) ∧
    ¬(valueOf [(0#4, 14, [0xFF, 0xFF])] 0#4).PadZero ∧ 0 ≠ 14 / 8 := by
  refine ⟨fun k hk => ?_, by decide, by decide⟩
  by_cases h : k < 4
  · have : ∀ k < 4, 14 / 8 < k → (valueOf [(0#4, 14, [0xFF, 0xFF])] 0#4).phys k = 0#8 := by decide
    exact this k h hk
  · exact MaskReg.phys_of_ge _ (Nat.not_lt.mp h)

theorem witness_ValueIdentityThreeForms :
    ((sample 0 0 0).reg 0#4).Inv ∧ ((sample 0 0 0).reg 1#4).Inv := by decide

/-- `L_MAX` and one more, for ZEROS and ONES. -/
theorem witness_ZerosConstructsZeroMask :
    (3#4 : RegField).toNat < (sample 0 31 0).cfg.nm ∧
    (sample 0 31 0).port.opnd.toNat ≤ (sample 0 31 0).cfg.nw * (sample 0 31 0).cfg.W - 1 ∧
    (sample 0 32 0).cfg.nw * (sample 0 32 0).cfg.W - 1 < (sample 0 32 0).port.opnd.toNat := by decide

theorem witness_OnesConstructsOnesMask :
    (3#4 : RegField).toNat < (sample 0 31 0).cfg.nm ∧
    (sample 0 31 0).port.opnd.toNat ≤ (sample 0 31 0).cfg.nw * (sample 0 31 0).cfg.W - 1 ∧
    (sample 0 32 0).cfg.nw * (sample 0 32 0).cfg.W - 1 < (sample 0 32 0).port.opnd.toNat := by decide

theorem witness_SetallFillsWithOneValue : (3#4 : RegField).toNat < (sample 0 0 0).cfg.nm := by decide

theorem witness_MovCopiesRegister :
    (3#4 : RegField).toNat < (sample 0 0 0).cfg.nm ∧ (0#4 : RegField).toNat < (sample 0 0 0).cfg.nm := by decide

/-- The last legal index of `M0`, and the first illegal one, for SET and GET. -/
theorem witness_SetWritesOneBit :
    (0#4 : RegField).toNat < (sample 0 13 0).cfg.nm ∧ ((sample 0 13 0).reg 0#4).Bounded ∧
    (sample 0 13 0).port.opnd.toNat < ((sample 0 13 0).reg 0#4).len ∧
    ((sample 0 14 0).reg 0#4).len ≤ (sample 0 14 0).port.opnd.toNat := by decide

theorem witness_GetReadsOneBit :
    (0#4 : RegField).toNat < (sample 0 13 0).cfg.nm ∧
    (sample 0 13 0).port.opnd.toNat < ((sample 0 13 0).reg 0#4).len ∧
    ((sample 0 14 0).reg 0#4).len ≤ (sample 0 14 0).port.opnd.toNat := by decide

theorem witness_LenReadsLength :
    (0#4 : RegField).toNat < (sample 0 0 0).cfg.nm ∧ ((sample 0 0 0).reg 0#4).Bounded := by decide

/-- A word-aligned length: the reserved word counts. -/
theorem witness_NwdReadsWordCount :
    (1#4 : RegField).toNat < (sample 0 0 0).cfg.nm ∧ ((sample 0 0 0).reg 1#4).Bounded := by decide

theorem witness_CntCountsSetBits :
    (0#4 : RegField).toNat < (sample 0 0 0).cfg.nm ∧ ((sample 0 0 0).reg 0#4).Inv := by decide

/-- A register with a set bit above bit 0, and one with none. -/
theorem witness_TzcFindsLowestSetBit :
    (0#4 : RegField).toNat < (sample 0 0 0).cfg.nm ∧ ((sample 0 0 0).reg 0#4).Inv ∧
    ((sample 0 0 0).reg 0#4).trailingZeros = 5 ∧ ((sample 0 0 0).reg 3#4).Inv ∧
    ((sample 0 0 0).reg 3#4).trailingZeros = 0 := by decide

/-- Lengths that differ, a register with itself, and a longer `zeros(14)` in `M3`. -/
theorem witness_BinaryOperatorsWordByWord :
    (2#4 : RegField).toNat < 4 ∧ (3#4 : RegField).toNat < 4 ∧
    ((withEvents [(2#4, 3, [0x05]), (3#4, 14, [])] []).reg 2#4).PadZero ∧
    ((withEvents [(2#4, 3, [0x05]), (3#4, 14, [])] []).reg 2#4).len ≤ 14 ∧
    (withEvents [(2#4, 3, [0x05]), (3#4, 14, [])] []).reg 3#4 = MaskReg.ofBits 8 4 14 (fun _ => false) :=
  ⟨by decide, by decide, by decide, by decide,
    (by decide : valueOf [(2#4, 3, [0x05]), (3#4, 14, [])] 3#4 = MaskReg.ofBits 8 4 14 fun _ => false)⟩

theorem witness_CompoundOperatorsWordByWord :
    (2#4 : RegField).toNat < (sample 0 0 0).cfg.nm ∧ (0#4 : RegField).toNat < (sample 0 0 0).cfg.nm ∧
    ((sample 0 0 0).reg 2#4).PadZero := by decide

theorem witness_NotInvertsLogicalBits :
    (3#4 : RegField).toNat < (sample 0 0 0).cfg.nm ∧ (1#4 : RegField).toNat < (sample 0 0 0).cfg.nm ∧
    ((sample 0 0 0).reg 1#4).PadZero := by decide

theorem witness_BooleanOperatorsBitByBit :
    (3#4 : RegField).toNat < 4 ∧ (0#4 : RegField).toNat < 4 ∧ (1#4 : RegField).toNat < 4 ∧ (sample 0 0 0).Inv :=
  ⟨by decide, by decide, by decide, sample_inv _ _ _⟩

/-- A destination that is neither the first nor the last source. -/
theorem witness_BinaryOperatorsAssociate :
    (3#4 : RegField) ≠ 0#4 ∧ (3#4 : RegField) ≠ 2#4 ∧ (3#4 : RegField).toNat < 4 ∧ (0#4 : RegField).toNat < 4 ∧
    (1#4 : RegField).toNat < 4 ∧ (2#4 : RegField).toNat < 4 ∧ (sample 0 0 0).Inv :=
  ⟨by decide, by decide, by decide, by decide, by decide, by decide, sample_inv _ _ _⟩

/-- `M3` as `zeros(14)`, no longer than `M0`; as `zeros(15)`, longer; and as `ones(14)`, of `M0`'s length. -/
theorem witness_BooleanIdentityLaws :
    (withEvents [(0#4, 14, [0x20, 0x04]), (3#4, 15, [])] []).Inv ∧
    (withEvents [(0#4, 14, [0x20, 0x04]), (3#4, 15, [])] []).reg 3#4 = MaskReg.ofBits 8 4 15 (fun _ => false) ∧
    (withEvents [(0#4, 14, [0x20, 0x04]), (3#4, 14, [])] []).reg 3#4 = MaskReg.ofBits 8 4 14 (fun _ => false) ∧
    (withEvents [(0#4, 14, [0x20, 0x04]), (3#4, 14, [0xFF, 0x3F])] []).reg 3#4 =
      MaskReg.ofBits 8 4 14 (fun _ => true) :=
  ⟨by decide,
    (by decide : valueOf [(0#4, 14, [0x20, 0x04]), (3#4, 15, [])] 3#4 = MaskReg.ofBits 8 4 15 fun _ => false),
    (by decide : valueOf [(0#4, 14, [0x20, 0x04]), (3#4, 14, [])] 3#4 = MaskReg.ofBits 8 4 14 fun _ => false),
    (by decide : valueOf [(0#4, 14, [0x20, 0x04]), (3#4, 14, [0xFF, 0x3F])] 3#4 = MaskReg.ofBits 8 4 14 fun _ => true)⟩

/-- Amounts 0, one below the length, the length, and the largest. -/
theorem witness_ShrShiftsTowardLowIndices :
    (3#4 : RegField).toNat < 4 ∧ ((sample 0 0 0).reg 0#4).PadZero ∧ (sample 0 0 0).port.opnd = 0#64 ∧
    ((sample 0 14 0).reg 0#4).len ≤ (sample 0 14 0).port.opnd.toNat ∧
    ((sample 0 (2 ^ 64 - 1) 0).reg 0#4).len ≤ (sample 0 (2 ^ 64 - 1) 0).port.opnd.toNat := by decide

theorem witness_ShlShiftsTowardHighIndices :
    (3#4 : RegField).toNat < 4 ∧ ((sample 0 0 0).reg 1#4).PadZero ∧ (sample 0 0 0).port.opnd = 0#64 ∧
    ((sample 0 8 0).reg 1#4).len ≤ (sample 0 8 0).port.opnd.toNat := by decide

theorem witness_InPlaceShiftsEqualTheirSources :
    (0#4 : RegField).toNat < (sample 0 3 0).cfg.nm ∧ ((sample 0 3 0).reg 0#4).PadZero := by decide

theorem witness_ShiftThereAndBack :
    (3#4 : RegField).toNat < 4 ∧ (0#4 : RegField).toNat < 4 ∧ (sample 0 3 0).Inv :=
  ⟨by decide, by decide, sample_inv _ _ _⟩

/-- A sum of amounts that fits `OPND`, and one that does not. -/
theorem witness_ShiftAmountsAdd :
    (3#4 : RegField).toNat < 4 ∧ (0#4 : RegField).toNat < 4 ∧ (sample 0 3 0).Inv ∧
    (1#64).toNat + (BitVec.ofNat 64 (2 ^ 64 - 2)).toNat < 2 ^ 64 ∧
    2 ^ 64 ≤ (1#64).toNat + (BitVec.ofNat 64 (2 ^ 64 - 1)).toNat :=
  ⟨by decide, by decide, sample_inv _ _ _, by decide, by decide⟩

theorem witness_EqComparesLengthAndWords :
    (0#4 : RegField).toNat < 4 ∧ (1#4 : RegField).toNat < 4 ∧ (sample 0 0 0).Inv :=
  ⟨by decide, by decide, sample_inv _ _ _⟩

/-- The reserved word of `M1`, and the first index past it; also for WRW. -/
theorem witness_RdwReadsAllocatedWord :
    (1#4 : RegField).toNat < (sample 0 1 0).cfg.nm ∧ ((sample 0 1 0).reg 1#4).Inv ∧
    (sample 0 1 0).port.opnd.toNat < ((sample 0 1 0).reg 1#4).len / (sample 0 1 0).cfg.W + 1 ∧
    ((sample 0 1 0).reg 1#4).len ≤ (sample 0 1 0).port.opnd.toNat * (sample 0 1 0).cfg.W + 0 ∧
    ((sample 0 2 0).reg 1#4).len / (sample 0 2 0).cfg.W + 1 ≤ (sample 0 2 0).port.opnd.toNat := by decide

theorem witness_WrwWritesAllocatedWord :
    (1#4 : RegField).toNat < (sample 0 1 0).cfg.nm ∧ ((sample 0 1 0).reg 1#4).Bounded ∧
    ((sample 0 1 0).reg 1#4).PadZero ∧
    (sample 0 1 0).port.opnd.toNat < ((sample 0 1 0).reg 1#4).len / (sample 0 1 0).cfg.W + 1 ∧
    ((sample 0 2 0).reg 1#4).len / (sample 0 2 0).cfg.W + 1 ≤ (sample 0 2 0).port.opnd.toNat := by decide

theorem witness_WordPortRoundTrip :
    (0#4 : RegField).toNat < 4 ∧ (3#4 : RegField).toNat < 4 ∧ (sample 0 0 0).Inv ∧
    ((sample 0 0 0).reg 0#4).len / 8 = 1 :=
  ⟨by decide, by decide, sample_inv _ _ _, by decide⟩

end Sys2Proof.Tests
end

/-! PROOFS of the statements of 10_state.md: reset, the step, the invariants, the frame of a command and what it
reads, and value identity. -/

namespace Sys2Proof.Machine

/-! ## The step -/

/-- The three ways a step answers a next state: idle, a command on the ports, a reset. -/
theorem step_next_cases {s s' : State} (h : step s = .next s') :
    s' = s ∨ (∃ t, runCommand (s.accept t) = .next s') ∨ s' = s.applyReset := by
  rcases step_cases s with ⟨-, hidle⟩ | ⟨t, -, hrun⟩ | ⟨-, hreset⟩ | ⟨t, u, -, hrefused⟩
  · exact .inl (Host.Outcome.next.inj (h.symm.trans hidle))
  · exact .inr (.inl ⟨t, hrun.symm.trans h⟩)
  · exact .inr (.inr (Host.Outcome.next.inj (h.symm.trans hreset)))
  · cases h.symm.trans hrefused

/-! ## The invariant of the register file (R31, R35, R36) -/

/-- The reset event leaves every register at `zeros(0)`, which keeps the invariant. -/
theorem State.applyReset_inv (s : State) : s.applyReset.Inv := fun r _ => by
  rw [s.applyReset_reg]
  exact MaskReg.empty_inv

/-- Every command keeps the invariant: of the four ways it ends, only one writes a register, with a writable value. -/
theorem State.Inv.exec_safe {s : State} (h : s.Inv) (i : Instr) : SafeOutcome (exec i s) := by
  have hends := exec_cases i s
  generalize exec i s = o at hends
  cases hends with
  | error c _ => exact ⟨_, rfl, h⟩
  | reg d T _ hT _ => exact ⟨_, rfl, h.setReg d (hT h)⟩
  | res v _ => exact ⟨_, rfl, h⟩
  | rwd x _ => exact ⟨_, rfl, h⟩

/-- Every command word, legal or not, keeps the invariant. -/
theorem State.Inv.runCommand_safe {s : State} (h : s.Inv) : SafeOutcome (runCommand s) := by
  rcases runCommand_cases s with ⟨i, -, hrun⟩ | ⟨e, -, hrun⟩
  · rw [hrun]; exact h.exec_safe i
  · exact ⟨_, hrun, h⟩

/-! ## Value identity (R47) -/

namespace MaskReg

variable {W NW : Nat} {X Y : MaskReg W NW}

theorem eq_iff_words : X = Y ↔ X.len = Y.len ∧ ∀ k (hk : k < NW), X.w[k] = Y.w[k] := by
  refine ⟨fun h => h ▸ ⟨rfl, fun _ _ => rfl⟩, fun ⟨hlen, hw⟩ => ext_phys hlen fun k hk => ?_⟩
  rw [phys_of_lt _ hk, phys_of_lt _ hk, hw k hk]

/-- Under the padding rule the logical bits determine the value: every other bit is 0. -/
theorem PadZero.eq_iff_bits (hX : X.PadZero) (hY : Y.PadZero) :
    X = Y ↔ X.len = Y.len ∧ ∀ j < X.len, X.bit j = Y.bit j := by
  refine ⟨fun h => h ▸ ⟨rfl, fun _ _ => rfl⟩, fun ⟨hlen, hbit⟩ => ext_bit hlen fun j _ => ?_⟩
  rcases Nat.lt_or_ge j X.len with hj | hj
  · exact hbit j hj
  · rw [hX.bit_eq_false hj, hY.bit_eq_false (hlen ▸ hj)]

end MaskReg

/-! ## What a command reads (R37) -/

/-- `s` with other mask registers, `STATUS`, `RES` and `RWD`: the same build, operands and host list. -/
def State.withResults (s : State) (m : Vector s.Reg s.cfg.nm) (st : BitVec 4) (r : BitVec 64) (w : Word s.cfg.W) :
    State := { s with m := m, status := st, res := r, rwd := w }

/-- No error code is the code of success (60_exceptions.md R271). -/
theorem Code.bits_ne_zero {c : Code} (hc : c ≠ .ok) : c.bits ≠ 0#4 := by
  cases c with
  | ok => exact absurd rfl hc
  | indexOutOfBounds | capacityExceeded | illegalCommand | deserializationFailed => decide

/-- The same command run in `s` and in `s.withResults m st r w`, ending alike: with the same error, or with the same
value written to the one place the command writes on success. -/
inductive EndsAlike (i : Instr) (s : State) (m : Vector s.Reg s.cfg.nm) (st : BitVec 4) (r : BitVec 64)
    (w : Word s.cfg.W) : Host.Outcome State Fault Refusal → Host.Outcome State Fault Refusal → Prop
  | error (c : Code) (hc : c ≠ .ok) :
      EndsAlike i s m st r w (.next (s.raise c)) (.next ((s.withResults m st r w).raise c))
  | reg (d : RegField) (T : s.Reg) (hdest : i.dest = some d) (hres : i.writesRes = false)
      (hrwd : i.writesRwd = false) :
      EndsAlike i s m st r w (.next (s.setReg d T).ok) (.next ((s.withResults m st r w).setReg d T).ok)
  | res (v : BitVec 64) (hdest : i.dest = none) (hrwd : i.writesRwd = false) :
      EndsAlike i s m st r w (.next (s.setRes v).ok) (.next ((s.withResults m st r w).setRes v).ok)
  | rwd (x : Word s.cfg.W) (hdest : i.dest = none) (hres : i.writesRes = false) :
      EndsAlike i s m st r w (.next (s.setRwd x).ok) (.next ((s.withResults m st r w).setRwd x).ok)

namespace EndsAlike

variable {i : Instr} {s : State} {m : Vector s.Reg s.cfg.nm} {st : BitVec 4} {r : BitVec 64} {w : Word s.cfg.W}

/-- The check of the register fields depends on the build alone, so it goes the same way in both states. -/
theorem of_withRegs {rs : List RegField} {t u : State} (h : EndsAlike i s m st r w (.next t) (.next u)) :
    EndsAlike i s m st r w (s.withRegs rs t) ((s.withResults m st r w).withRegs rs u) := by
  by_cases hrs : ∀ x ∈ rs, x.toNat < s.cfg.nm
  · rw [s.withRegs_legal hrs, (s.withResults m st r w).withRegs_legal hrs]
    exact h
  · rw [s.withRegs_illegal hrs, (s.withResults m st r w).withRegs_illegal hrs]
    exact .error _ (by decide)

/-- An operand check that depends on the build, the operands and the sources goes the same way in both states. -/
theorem of_check {p : Prop} [Decidable p] {c : Code} (hc : c ≠ .ok) {t u : State}
    (h : EndsAlike i s m st r w (.next t) (.next u)) :
    EndsAlike i s m st r w (.next (if p then s.raise c else t))
      (.next (if p then (s.withResults m st r w).raise c else u)) := by
  split
  · exact .error c hc
  · exact h

end EndsAlike

/-- A command reads no state but its source registers: where the two states agree on them, it ends alike. -/
theorem exec_endsAlike (i : Instr) (s : State) (m : Vector s.Reg s.cfg.nm) (st : BitVec 4) (r : BitVec 64)
    (w : Word s.cfg.W) (hsrc : ∀ x ∈ i.sources, (s.withResults m st r w).reg x = s.reg x) :
    EndsAlike i s m st r w (exec i s) (exec i (s.withResults m st r w)) := by
  cases i with
  | zeros d | ones d => exact .of_withRegs (.of_check (by decide) (.reg d _ rfl rfl rfl))
  | setall d _ | shra d | shla d =>
    refine .of_withRegs ?_
    rw [hsrc d List.mem_cons_self]
    exact .reg d _ rfl rfl rfl
  | mov d a | not d a | shr d a | shl d a =>
    refine .of_withRegs ?_
    rw [hsrc a List.mem_cons_self]
    exact .reg d _ rfl rfl rfl
  | and d a b | or d a b | xor d a b =>
    refine .of_withRegs ?_
    rw [hsrc a List.mem_cons_self, hsrc b (List.mem_cons_of_mem _ List.mem_cons_self)]
    exact .reg d _ rfl rfl rfl
  | anda d b | ora d b | xora d b =>
    refine .of_withRegs ?_
    rw [hsrc d List.mem_cons_self, hsrc b (List.mem_cons_of_mem _ List.mem_cons_self)]
    exact .reg d _ rfl rfl rfl
  | set d _ | wrw d =>
    refine .of_withRegs ?_
    rw [hsrc d List.mem_cons_self]
    exact .of_check (by decide) (.reg d _ rfl rfl rfl)
  | get a =>
    refine .of_withRegs ?_
    rw [hsrc a List.mem_cons_self]
    exact .of_check (by decide) (.res _ rfl rfl)
  | rdw a =>
    refine .of_withRegs ?_
    rw [hsrc a List.mem_cons_self]
    exact .of_check (by decide) (.rwd _ rfl rfl)
  | len a | nwd a | cnt a | tzc a =>
    refine .of_withRegs ?_
    rw [hsrc a List.mem_cons_self]
    exact .res _ rfl rfl
  | eq a b =>
    refine .of_withRegs ?_
    rw [hsrc a List.mem_cons_self, hsrc b (List.mem_cons_of_mem _ List.mem_cons_self)]
    exact .res _ rfl rfl
  | cfg => exact .of_withRegs (rs := []) (.res (configWord s.cfg) rfl rfl)

/-! ## The statements -/

/-- Settles O10, by the three ways a step answers a next state. -/
theorem stepKeepsPaddingZero : Obligations.StepKeepsPaddingZero := by
  intro s s' hinv hstep
  rcases step_next_cases hstep with rfl | ⟨t, hrun⟩ | rfl
  · exact hinv
  · have haccept : (s.accept t).Inv := hinv
    obtain ⟨u, hu, huinv⟩ := haccept.runCommand_safe
    obtain rfl : u = s' := Host.Outcome.next.inj (hu.symm.trans hrun)
    exact huinv
  · exact s.applyReset_inv

/-- Settles O9: a command changes registers only (`runCommand_shape`), and every other step is an update too. -/
theorem stepKeepsBuildParameters : Obligations.StepKeepsBuildParameters := by
  intro s s' hstep
  rcases step_next_cases hstep with rfl | ⟨t, hrun⟩ | rfl
  · exact ⟨s'.m, s'.status, s'.res, s'.rwd, s'.port, s'.pos, rfl⟩
  · obtain ⟨m, st, r, w, hshape⟩ := runCommand_shape (s.accept t)
    exact ⟨m, st, r, w, t, s.pos + 1, Host.Outcome.next.inj (hrun.symm.trans hshape)⟩
  · exact ⟨_, 0#4, 0#64, 0#s.cfg.W, s.port, s.pos + 1, rfl⟩

/-- Settles O14, by the four ways a command ends (`exec_cases`). -/
theorem commandWritesOnlyItsDestination : Obligations.CommandWritesOnlyItsDestination := by
  intro i s
  have hends := exec_cases i s
  generalize exec i s = o at hends
  cases hends with
  | error c _ => exact ⟨s.m, c.bits, s.res, s.rwd, rfl, fun _ _ _ => rfl, fun _ => rfl, fun _ => rfl⟩
  | reg d T hdest _ _ =>
    refine ⟨s.m.setIfInBounds d.toNat T, 0#4, s.res, s.rwd, rfl, fun k hk hne => ?_, fun _ => rfl, fun _ => rfl⟩
    exact Vector.getElem_setIfInBounds_ne hk (hne d hdest)
  | res v hres =>
    exact ⟨s.m, 0#4, v, s.rwd, rfl, fun _ _ _ => rfl, by simp [hres], fun _ => rfl⟩
  | rwd x hrwd =>
    exact ⟨s.m, 0#4, s.res, x, rfl, fun _ _ _ => rfl, fun _ => rfl, by simp [hrwd]⟩

/-- Settles O15: the two runs end alike (`exec_endsAlike`), and in each of the four ways they end the written values
are the same. -/
theorem commandReadsOnlyItsSources : Obligations.CommandReadsOnlyItsSources := by
  intro i s m' st' r' w' hsrc
  have halike := exec_endsAlike i s m' st' r' w' hsrc
  change ∃ m st r w m₂ r₂ w₂, _ ∧ exec i (s.withResults m' st' r' w') = _ ∧ _
  generalize exec i s = o, exec i (s.withResults m' st' r' w') = o₂ at halike
  cases halike with
  | error c hc =>
    exact ⟨s.m, c.bits, s.res, s.rwd, m', r', w', rfl, rfl, fun hok => absurd hok (Code.bits_ne_zero hc)⟩
  | reg d T hdest hres hrwd =>
    refine ⟨s.m.setIfInBounds d.toNat T, 0#4, s.res, s.rwd, m'.setIfInBounds d.toNat T, r', w', rfl, rfl,
      fun _ => ⟨fun d' hd' hlt => ?_, by simp [hres], by simp [hrwd]⟩⟩
    obtain rfl : d = d' := Option.some.inj (hdest.symm.trans hd')
    rw [Vector.getElem_setIfInBounds_self, Vector.getElem_setIfInBounds_self]
  | res v hdest hrwd =>
    exact ⟨s.m, 0#4, v, s.rwd, m', v, w', rfl, rfl, fun _ => ⟨by simp [hdest], fun _ => rfl, by simp [hrwd]⟩⟩
  | rwd x hdest hres =>
    exact ⟨s.m, 0#4, s.res, x, m', r', x, rfl, rfl, fun _ => ⟨by simp [hdest], by simp [hres], fun _ => rfl⟩⟩

/-- Settles O29: under the padding rule each of the three forms is equality of the two values. -/
theorem valueIdentityThreeForms : Obligations.ValueIdentityThreeForms := by
  rintro cfg X Y ⟨-, hX⟩ ⟨-, hY⟩
  rw [hX.sameValue_iff hY]
  exact ⟨MaskReg.eq_iff_words, hX.eq_iff_bits hY⟩

/-- Settles O1: every register reads `zeros(0)` (`State.resetOf_reg`). -/
theorem resetStateValues : Obligations.ResetStateValues := by
  intro cfg
  refine ⟨fun r _ => ?_, rfl, rfl, rfl⟩
  rw [State.resetOf_reg]
  exact ⟨rfl, fun k hk => Vector.getElem_replicate hk⟩

/-- Settles O8: the step runs the command on the ports (`step_issue`), which changes registers only. -/
theorem commandStepAdvancesPositionByOne : Obligations.CommandStepAdvancesPositionByOne := by
  intro s t ht
  obtain ⟨m, st, r, w, hrun⟩ := runCommand_shape (s.accept t)
  exact ⟨m, st, r, w, (step_issue ht).trans hrun⟩

end Sys2Proof.Machine

/-! PROOFS of the statements of 20_memory.md: the query commands, the tail mask, the implicit-zero word lookup and
the tail correction. -/

namespace Sys2Proof.Machine

/-! ## Query commands (R71) -/

/-- A query command writes no mask register (10_state.md R37's table). -/
theorem dest_eq_none_of_query {i : Instr} (h : i.writesRes = true ∨ i.writesRwd = true) : i.dest = none := by
  cases i with
  | get _ | len _ | nwd _ | cnt _ | tzc _ | eq _ _ | cfg | rdw _ => rfl
  | zeros _ | ones _ | setall _ _ | set _ _ | mov _ _ | not _ _ | shr _ _ | shl _ _ | and _ _ _ | or _ _ _
  | xor _ _ _ | anda _ _ | ora _ _ | xora _ _ | shra _ | shla _ | wrw _ => exact h.elim nofun nofun

/-- A command without a destination register leaves the register file as it is. -/
theorem exec_eq_withResults {i : Instr} (s : State) (h : i.dest = none) :
    ∃ st r w, exec i s = .next (s.withResults s.m st r w) := by
  obtain ⟨m, st, r, w, hexec, hframe, -, -⟩ := commandWritesOnlyItsDestination i s
  obtain rfl : m = s.m := Vector.ext fun k hk => hframe k hk fun d hd => by simp [h] at hd
  exact ⟨st, r, w, hexec⟩

/-- Two runs that end alike, the second from the state the first one leaves: where no mask register is written, the
second leaves that state as it is. -/
theorem EndsAlike.repeat_eq {i : Instr} {s : State} {st : BitVec 4} {r : BitVec 64} {w : Word s.cfg.W}
    {o : Host.Outcome State Fault Refusal} (hdest : i.dest = none)
    (h : EndsAlike i s s.m st r w (.next (s.withResults s.m st r w)) o) :
    o = .next (s.withResults s.m st r w) := by
  generalize hfirst : Host.Outcome.next (s.withResults s.m st r w) = first at h
  cases h with
  | error c _ => cases hfirst; rfl
  | reg d T hd _ _ => simp [hdest] at hd
  | res v _ _ => cases hfirst; rfl
  | rwd x _ _ => cases hfirst; rfl

/-! ## The implicit-zero lookup (R63) -/

namespace MaskReg

variable {W NW : Nat} (X : MaskReg W NW)

theorem word_of_lt {k : Nat} (h : k < nwords W X.len) : X.word k = X.phys k := if_pos h

theorem word_of_nwords_le {k : Nat} (h : nwords W X.len ≤ k) : X.word k = 0#W := if_neg (Nat.not_lt.mpr h)

/-- No word past the last physical one is read, whatever the length. -/
theorem word_of_ge {k : Nat} (h : NW ≤ k) : X.word k = 0#W := by
  rw [word, X.phys_of_ge h, ite_self]

/-! ## The tail correction (R65) -/

/-- The tail correction keeps every logical bit: a bit of the tail word below `len` has an offset the mask keeps. -/
theorem bit_tailfix_of_lt (hW : 0 < W) {j : Nat} (hj : j < X.len) : X.tailfix.bit j = X.bit j := by
  rw [X.bit_tailfix hW]
  rcases (lt_iff_div_mod hW j X.len).mp hj with hword | ⟨-, hoff⟩
  · simp [hword.ne]
  · simp [hoff]

/-- A bit at or above `len` lies in the tail word, where the mask clears it, or in a word above, which is `ZERO`. -/
theorem tailfix_padZero (hW : 0 < W) (habove : ∀ k, X.len / W < k → X.phys k = 0#W) : X.tailfix.PadZero := by
  intro j _ hj
  rw [X.bit_tailfix hW]
  rcases (Nat.div_le_div_right hj : X.len / W ≤ j / W).eq_or_lt with htail | hword
  · have hoff : ¬j % W < X.len % W := fun h =>
      Nat.not_lt.mpr hj ((lt_iff_div_mod hW j X.len).mpr (.inr ⟨htail.symm, h⟩))
    simp [htail, hoff]
  · simp [X.bit_eq j hW, habove _ hword]

end MaskReg

/-! ## The statements -/

/-- Settles O18: neither run writes a mask register, and what a query reads is not what it writes, so the second run
ends like the first (`exec_endsAlike`). -/
theorem queriesAreIdempotent : Obligations.QueriesAreIdempotent := by
  intro i s hquery
  have hdest := dest_eq_none_of_query hquery
  obtain ⟨st, r, w, hexec⟩ := exec_eq_withResults s hdest
  have halike := exec_endsAlike i s s.m st r w fun _ _ => rfl
  rw [hexec] at halike
  exact ⟨st, r, w, hexec, halike.repeat_eq hdest⟩

/-- Settles O26: the bits by `getLsbD_tailmask`, the value by `tailmask_eq_ofNat`. -/
theorem tailMaskHasLowBits : Obligations.TailMaskHasLowBits := by
  intro cfg L
  have hW := W_pos cfg
  refine ⟨getLsbD_tailmask hW L, ?_, fun haligned => ?_⟩
  · have hpow : 2 ^ (L % cfg.W) < 2 ^ cfg.W := Nat.pow_lt_pow_right (by decide) (Nat.mod_lt L hW)
    rw [tailmask_eq_ofNat hW, BitVec.toNat_ofNat, Nat.mod_eq_of_lt ((Nat.sub_le _ _).trans_lt hpow)]
  · rw [tailmask_eq_ofNat hW, haligned]
    rfl

/-- Settles O27: the lookup is the physical word where one is allocated, and under the padding rule everywhere. -/
theorem wordLookupIsImplicitZero : Obligations.WordLookupIsImplicitZero := by
  intro W NW X k
  refine ⟨fun hk halloc => ?_, X.word_of_nwords_le, X.word_of_ge, fun hpad hk => ?_⟩
  · rw [X.word_of_lt halloc, X.phys_of_lt hk]
  · rw [hpad.word_eq_phys, X.phys_of_lt hk]

/-- Settles O28: word by word by `phys_tailfix`; the padding and the logical bits by the position of a bit index
relative to the tail word. -/
theorem tailfixClearsPadding : Obligations.TailfixClearsPadding := by
  intro cfg T
  have hW := W_pos cfg
  refine ⟨T.len_tailfix, fun k hk => ?_, ?_, fun habove =>
    ⟨T.tailfix_padZero hW habove, fun j => T.bit_tailfix_of_lt hW⟩⟩
  · rw [T.phys_tailfix, if_neg hk]
  · rw [T.phys_tailfix, if_pos rfl]

end Sys2Proof.Machine

/-! PROOFS of the statements of 30_encoding.md: the decoder and the encoder, the operand ports, the second check of
the register fields, and the pseudo-instructions. -/

namespace Sys2Proof

/-! ## Decoding the word of a command (R91, R98) -/

/-- The format check passes on the word of a command: the encoder leaves every unused field zero (R97 (c)). -/
theorem unusedZero_encode (i : Instr) : Cmd.unusedZero i.format (encode i) = true := by
  cases i <;> simp [encode, unusedZero_eq_true_iff, Instr.format, Format.usesRD, Format.usesRA, Format.usesRB,
    Format.usesV]

/-- The opcode of a command selects its own row, which reads the fields the encoder packed. -/
theorem decodeOpcode_encode_eq_withFormat (i : Instr) :
    decodeOpcode (encode i) = Cmd.withFormat i.format (encode i) i := by
  cases i <;> simp [encode, decodeOpcode, Instr.format]

theorem decodeOpcode_encode (i : Instr) : decodeOpcode (encode i) = .ok i := by
  rw [decodeOpcode_encode_eq_withFormat, withFormat_eq_ok_iff]
  exact ⟨unusedZero_encode i, rfl⟩

/-! ## The decoder by the fields of the word (R97) -/

/-- What the decoder makes of a word: an unassigned opcode is rejected, and any other word is accepted as the one
command its fields name, or not at all. -/
theorem decode_cases (w : BitVec 32) :
    ((∀ row ∈ opcodeMap, (Cmd.op w).toNat ≠ row.1) ∧ ∀ nm j, decode nm w ≠ .ok j) ∨
    ∃ f i, NamesFields w f i ∧ ∀ nm j, decode nm w = .ok j ↔
      i = j ∧ Cmd.rsv w = 0#11 ∧ Cmd.unusedZero f w = true ∧ i.WellFormed nm := by
  rcases decodeOpcode_cases w with ⟨herr, hop⟩ | ⟨f, i, hi, hdec⟩
  · refine .inl ⟨hop, fun nm j h => ?_⟩
    obtain ⟨-, hok, -⟩ := (decode_eq_ok_iff nm w j).mp h
    cases herr.symm.trans hok
  · refine .inr ⟨f, i, hi, fun nm j => ?_⟩
    rw [decode_eq_ok_iff, hdec, withFormat_eq_ok_iff]
    constructor
    · rintro ⟨hrsv, ⟨hunused, rfl⟩, hwf⟩
      exact ⟨rfl, hrsv, hunused, hwf⟩
    · rintro ⟨rfl, hrsv, hunused, hwf⟩
      exact ⟨hrsv, ⟨hunused, rfl⟩, hwf⟩

/-- An accepted word: its fields name the command, its reserved and unused bits are zero, its registers exist. -/
theorem namesFields_of_decode {nm : Nat} {w : BitVec 32} {i : Instr} (h : decode nm w = .ok i) :
    NamesFields w i.format i ∧ Cmd.rsv w = 0#11 ∧ Cmd.unusedZero i.format w = true ∧ i.WellFormed nm := by
  rcases decode_cases w with ⟨-, hnone⟩ | ⟨f, j, hj, hdec⟩
  · exact absurd h (hnone nm i)
  · obtain ⟨rfl, hrsv, hunused, hwf⟩ := (hdec nm i).mp h
    obtain rfl := hj.format
    exact ⟨hj, hrsv, hunused, hwf⟩

/-- A word with zero reserved and unused bits is the word of the command its fields name. -/
theorem NamesFields.encode_eq {w : BitVec 32} {f : Format} {i : Instr} (h : NamesFields w f i)
    (hrsv : Cmd.rsv w = 0#11) (hunused : Cmd.unusedZero f w = true) : encode i = w := by
  obtain ⟨hrd, hra, hrb, hv⟩ := (unusedZero_eq_true_iff f w).mp hunused
  have hfield : ∀ (u : Bool) (x : RegField), (u = false → x = 0#4) → (if u then x else 0#4) = x := by
    intro u x hx
    cases u with
    | false => exact (hx rfl).symm
    | true => rfl
  have hflag : (f.usesV && Cmd.v w) = Cmd.v w := by
    cases hu : f.usesV with
    | false => rw [hv hu]; rfl
    | true => rfl
  rw [h.word, hfield _ _ hrd, hfield _ _ hra, hfield _ _ hrb, hflag, packCmd_fields hrsv]

/-- An assigned opcode stands in its own row alone, so a condition on "the row of the opcode" is one on its format. -/
theorem exists_row_iff {x : Nat} {f : Format} (hf : (x, f) ∈ opcodeMap) (P : Format → Prop) :
    (∃ row ∈ opcodeMap, x = row.1 ∧ P row.2) ↔ P f := by
  constructor
  · rintro ⟨⟨_, g⟩, hg, rfl, hP⟩
    exact opcodeMap_format_unique hg hf ▸ hP
  · exact fun hP => ⟨_, hf, rfl, hP⟩

theorem v_eq_false_iff (w : BitVec 32) : Cmd.v w = false ↔ w.toNat / 2 ^ 20 % 2 = 0 := by
  rw [v_eq, decide_eq_false_iff_not, Nat.mod_two_not_eq_one]

/-- R97 (c) for an opcode of format `f`, as `IllegalWord` spells it: a field the format does not use is nonzero. -/
def UnusedFieldNonzero (w : BitVec 32) (f : Format) : Prop :=
  (f.usesRD = false ∧ w.toNat / 2 ^ 8 % 16 ≠ 0) ∨ (f.usesRA = false ∧ w.toNat / 2 ^ 12 % 16 ≠ 0) ∨
  (f.usesRB = false ∧ w.toNat / 2 ^ 16 % 16 ≠ 0) ∨ (f.usesV = false ∧ w.toNat / 2 ^ 20 % 2 ≠ 0)

/-- R97 (d) for an opcode of format `f`, as `IllegalWord` spells it: a register field the format uses is `>= nm`. -/
def RegisterFieldUnnamed (nm : Nat) (w : BitVec 32) (f : Format) : Prop :=
  (f.usesRD = true ∧ nm ≤ w.toNat / 2 ^ 8 % 16) ∨ (f.usesRA = true ∧ nm ≤ w.toNat / 2 ^ 12 % 16) ∨
  (f.usesRB = true ∧ nm ≤ w.toNat / 2 ^ 16 % 16)

theorem unusedFieldNonzero_iff (w : BitVec 32) (f : Format) :
    UnusedFieldNonzero w f ↔ ¬Cmd.unusedZero f w = true := by
  have hzero : ∀ x : RegField, x = 0#4 ↔ x.toNat = 0 := fun x => BitVec.toNat_inj.symm
  rw [unusedZero_eq_true_iff, hzero, hzero, hzero, v_eq_false_iff, rd_toNat, ra_toNat, rb_toNat]
  simp only [UnusedFieldNonzero, not_and_or, Classical.not_imp]

theorem NamesFields.registerFieldUnnamed_iff {w : BitVec 32} {f : Format} {i : Instr} (h : NamesFields w f i)
    (nm : Nat) : RegisterFieldUnnamed nm w f ↔ ¬i.WellFormed nm := by
  rw [h.wellFormed_iff, rd_toNat, ra_toNat, rb_toNat]
  simp only [RegisterFieldUnnamed, not_and_or, Classical.not_imp, Nat.not_lt]

/-- Of a word whose opcode is assigned, R97's four conditions reduce to (b), (c) and (d) for its own row. -/
theorem NamesFields.illegalWord_iff {w : BitVec 32} {f : Format} {i : Instr} (h : NamesFields w f i) (nm : Nat) :
    IllegalWord nm w ↔ ¬(Cmd.rsv w = 0#11 ∧ Cmd.unusedZero f w = true ∧ i.WellFormed nm) := by
  have hrow := h.inMap
  rw [op_toNat] at hrow
  have hassigned : ¬∀ row ∈ opcodeMap, w.toNat % 256 ≠ row.1 := fun hop => hop _ hrow rfl
  calc IllegalWord nm w
    _ ↔ w.toNat / 2 ^ 21 ≠ 0 ∨ (∃ row ∈ opcodeMap, w.toNat % 256 = row.1 ∧ UnusedFieldNonzero w row.2) ∨
        ∃ row ∈ opcodeMap, w.toNat % 256 = row.1 ∧ RegisterFieldUnnamed nm w row.2 := or_iff_right hassigned
    _ ↔ w.toNat / 2 ^ 21 ≠ 0 ∨ UnusedFieldNonzero w f ∨ RegisterFieldUnnamed nm w f := by
      rw [exists_row_iff hrow, exists_row_iff hrow]
    _ ↔ ¬(Cmd.rsv w = 0#11 ∧ Cmd.unusedZero f w = true ∧ i.WellFormed nm) := by
      rw [not_and_or, not_and_or, rsv_eq_zero_iff, unusedFieldNonzero_iff, h.registerFieldUnnamed_iff]

/-- A word whose opcode is assigned to no row is illegal by R97 (a). -/
theorem illegalWord_of_opcode {w : BitVec 32} (nm : Nat) (h : ∀ row ∈ opcodeMap, (Cmd.op w).toNat ≠ row.1) :
    IllegalWord nm w := .inl fun row hrow => op_toNat w ▸ h row hrow

/-- The decoder accepts a word exactly when it is not illegal (R97). -/
theorem exists_decode_iff (nm : Nat) (w : BitVec 32) : (∃ i, decode nm w = .ok i) ↔ ¬IllegalWord nm w := by
  rcases decode_cases w with ⟨hop, hnone⟩ | ⟨f, i, hi, hdec⟩
  · have hillegal := illegalWord_of_opcode nm hop
    exact ⟨fun ⟨j, hj⟩ => absurd hj (hnone nm j), fun hlegal => absurd hillegal hlegal⟩
  · rw [hi.illegalWord_iff, not_not]
    exact ⟨fun ⟨j, hj⟩ => ((hdec nm j).mp hj).2, fun hlegal => ⟨i, (hdec nm i).mpr ⟨rfl, hlegal⟩⟩⟩

/-! ## The format masks (R93) -/

section Mask

variable (f : Format) (x : BitVec 8) (w m : BitVec 32)

theorem op_and : Cmd.op (w &&& m) = Cmd.op w &&& Cmd.op m := BitVec.extractLsb'_and

theorem rd_and : Cmd.rd (w &&& m) = Cmd.rd w &&& Cmd.rd m := BitVec.extractLsb'_and

theorem ra_and : Cmd.ra (w &&& m) = Cmd.ra w &&& Cmd.ra m := BitVec.extractLsb'_and

theorem rb_and : Cmd.rb (w &&& m) = Cmd.rb w &&& Cmd.rb m := BitVec.extractLsb'_and

theorem v_and : Cmd.v (w &&& m) = (Cmd.v w && Cmd.v m) := BitVec.getLsbD_and

theorem rsv_and : Cmd.rsv (w &&& m) = Cmd.rsv w &&& Cmd.rsv m := BitVec.extractLsb'_and

theorem op_mask : Cmd.op f.mask = BitVec.allOnes 8 := by cases f <;> decide

theorem rd_mask : Cmd.rd f.mask = if f.usesRD then 0#4 else BitVec.allOnes 4 := by cases f <;> decide

theorem ra_mask : Cmd.ra f.mask = if f.usesRA then 0#4 else BitVec.allOnes 4 := by cases f <;> decide

theorem rb_mask : Cmd.rb f.mask = if f.usesRB then 0#4 else BitVec.allOnes 4 := by cases f <;> decide

theorem v_mask : Cmd.v f.mask = !f.usesV := by cases f <;> decide

theorem rsv_mask : Cmd.rsv f.mask = BitVec.allOnes 11 := by cases f <;> decide

/-- A register field that is zero under its part of a mask is zero, if the format leaves it unused. -/
theorem eq_zero_of_and_mask {uses : Bool} {r : RegField}
    (h : r &&& (if uses then 0#4 else BitVec.allOnes 4) = 0#4) (hu : uses = false) : r = 0#4 := by
  subst hu
  exact BitVec.and_allOnes.symm.trans h

/-- The opcode value as a command word: every field above the opcode is zero. -/
theorem setWidth_eq_packCmd : x.setWidth 32 = packCmd x 0#4 0#4 0#4 false :=
  (BitVec.setWidth_eq_append (by decide : 8 ≤ 32) (x := x)).trans (by simp [packCmd])

/-- A word matches an opcode value under a format's mask exactly when it has that opcode, zero reserved bits, and
zero in every field the format leaves unused. -/
theorem and_mask_eq_iff :
    w &&& f.mask = x.setWidth 32 ↔ Cmd.op w = x ∧ Cmd.rsv w = 0#11 ∧ Cmd.unusedZero f w = true := by
  constructor
  · intro h
    rw [setWidth_eq_packCmd] at h
    have hop := congrArg Cmd.op h
    have hrd := congrArg Cmd.rd h
    have hra := congrArg Cmd.ra h
    have hrb := congrArg Cmd.rb h
    have hv := congrArg Cmd.v h
    have hrsv := congrArg Cmd.rsv h
    rw [op_and, op_mask, BitVec.and_allOnes, op_packCmd] at hop
    rw [rsv_and, rsv_mask, BitVec.and_allOnes, rsv_packCmd] at hrsv
    rw [rd_and, rd_mask, rd_packCmd] at hrd
    rw [ra_and, ra_mask, ra_packCmd] at hra
    rw [rb_and, rb_mask, rb_packCmd] at hrb
    rw [v_and, v_mask, v_packCmd] at hv
    refine ⟨hop, hrsv, (unusedZero_eq_true_iff f w).mpr ⟨eq_zero_of_and_mask hrd, eq_zero_of_and_mask hra,
      eq_zero_of_and_mask hrb, fun hu => ?_⟩⟩
    rwa [hu, Bool.not_false, Bool.and_true] at hv
  · rintro ⟨rfl, hrsv, hunused⟩
    obtain ⟨hrd, hra, hrb, hv⟩ := (unusedZero_eq_true_iff f w).mp hunused
    have hmask := packCmd_and_mask f (Cmd.op w) _ _ _ _ hrd hra hrb hv
    rwa [packCmd_fields hrsv] at hmask

end Mask

/-! ## The statements about words -/

/-- Settles O20: the word of a command passes each stage of the decoder. -/
theorem decodeOfEncode : Obligations.DecodeOfEncode := fun nm i hwf =>
  (decode_eq_ok_iff nm (encode i) i).mpr ⟨rsv_encode i, decodeOpcode_encode i, hwf⟩

/-- Settles O21: the fields of an accepted word name its command, and no other bit of it is set. -/
theorem encodeOfDecode : Obligations.EncodeOfDecode := by
  intro nm w i hdec
  obtain ⟨hi, hrsv, hunused, hwf⟩ := namesFields_of_decode hdec
  exact ⟨hwf, hi.encode_eq hrsv hunused⟩

/-- Settles O22, by `exists_decode_iff`; the decoder is a function, so a word selects at most one command. -/
theorem decoderRejectsExactlyIllegalWords : Obligations.DecoderRejectsExactlyIllegalWords := by
  intro nm w
  have haccepts := exists_decode_iff nm w
  refine ⟨?_, fun hlegal => ?_⟩
  · rw [← not_iff_not, ← haccepts]
    rcases decode_ok_or_error nm w with ⟨i, hi⟩ | ⟨e, he⟩
    · simp [hi]
    · simp [he]
  · obtain ⟨i, hi⟩ := haccepts.mpr hlegal
    exact ⟨i, hi, fun j hj => Except.ok.inj (hj.symm.trans hi)⟩

/-- Settles O23: both sides say that the opcode is `x` and the reserved and unused bits are zero (`and_mask_eq_iff`). -/
theorem wordMatchesItsFormatMask : Obligations.WordMatchesItsFormatMask := by
  intro w x f hrow
  rw [and_mask_eq_iff]
  constructor
  · rintro ⟨rfl, hrsv, hunused⟩
    rcases decode_cases w with ⟨hop, -⟩ | ⟨g, i, hi, hdec⟩
    · exact absurd rfl (hop _ hrow)
    · obtain rfl := opcodeMap_format_unique hi.inMap hrow
      exact ⟨i, (hdec 16 i).mpr ⟨rfl, hrsv, hunused, fun r _ => r.isLt⟩, hi.opcode, hi.format⟩
  · rintro ⟨i, hdec, rfl, rfl⟩
    obtain ⟨hi, hrsv, hunused, -⟩ := namesFields_of_decode hdec
    exact ⟨hi.opcode.symm, hrsv, hunused⟩

/-- Settles O24, by running the encoder and the decoder on the words of R102. -/
theorem encodingExamples : Obligations.EncodingExamples := by
  unfold Obligations.EncodingExamples
  decide

end Sys2Proof

namespace Sys2Proof.Machine

/-! ## The second check of the register fields (R97 (d)) -/

/-- Every command checks exactly the register fields its word spells. -/
theorem exec_eq_withRegs (i : Instr) (s : State) : ∃ t, exec i s = s.withRegs i.regs t := by
  cases i <;> exact ⟨_, rfl⟩

/-! ## The operand ports (R94, R95) -/

/-- `s` with `p` on the input ports. -/
def State.withPort (s : State) (p : Transaction s.cfg.W) : State := { s with port := p }

/-- The outcomes `o` from `s` and `o'` from `s.withPort p` write the same values to `M`, `STATUS`, `RES` and `RWD` and
change nothing else. -/
def SameResults (s : State) (p : Transaction s.cfg.W) (o o' : Host.Outcome State Fault Refusal) : Prop :=
  ∃ m st r w, o = .next (s.withResults m st r w) ∧ o' = .next ((s.withPort p).withResults m st r w)

namespace SameResults

variable {s : State} {p : Transaction s.cfg.W}

theorem raise (c : Code) : SameResults s p (.next (s.raise c)) (.next ((s.withPort p).raise c)) :=
  ⟨_, _, _, _, rfl, rfl⟩

theorem reg (d : RegField) (T : s.Reg) :
    SameResults s p (.next (s.setReg d T).ok) (.next ((s.withPort p).setReg d T).ok) := ⟨_, _, _, _, rfl, rfl⟩

theorem res (v : BitVec 64) : SameResults s p (.next (s.setRes v).ok) (.next ((s.withPort p).setRes v).ok) :=
  ⟨_, _, _, _, rfl, rfl⟩

theorem rwd (x : Word s.cfg.W) : SameResults s p (.next (s.setRwd x).ok) (.next ((s.withPort p).setRwd x).ok) :=
  ⟨_, _, _, _, rfl, rfl⟩

/-- The check of the register fields does not read the ports. -/
theorem of_withRegs {rs : List RegField} {t u : State} (h : SameResults s p (.next t) (.next u)) :
    SameResults s p (s.withRegs rs t) ((s.withPort p).withRegs rs u) := by
  by_cases hrs : ∀ x ∈ rs, x.toNat < s.cfg.nm
  · rw [s.withRegs_legal hrs, (s.withPort p).withRegs_legal hrs]
    exact h
  · rw [s.withRegs_illegal hrs, (s.withPort p).withRegs_illegal hrs]
    exact raise _

/-- An operand check that goes the same way in both states. -/
theorem of_check {q : Prop} [Decidable q] {c : Code} {t u : State} (h : SameResults s p (.next t) (.next u)) :
    SameResults s p (.next (if q then s.raise c else t)) (.next (if q then (s.withPort p).raise c else u)) := by
  split
  · exact raise c
  · exact h

end SameResults

/-- A command depends on the ports only through `OPND`, if R94 lists it, and through `WDATA`, if it is WRW (R95). -/
theorem exec_withPort (i : Instr) (s : State) (p : Transaction s.cfg.W)
    (hopnd : i.readsOpnd = true → (s.withPort p).opnd = s.opnd)
    (hwdata : ∀ d, i = .wrw d → (s.withPort p).wdata = s.wdata) :
    SameResults s p (exec i s) (exec i (s.withPort p)) := by
  cases i with
  | setall d _ | mov d _ | and d _ _ | or d _ _ | xor d _ _ | not d _ | anda d _ | ora d _ | xora d _ =>
    exact .of_withRegs (.reg d _)
  | len _ | nwd _ | cnt _ | tzc _ | eq _ _ => exact .of_withRegs (.res _)
  | cfg => exact .of_withRegs (rs := []) (.res (configWord s.cfg))
  | shr d _ | shl d _ | shra d | shla d =>
    refine .of_withRegs ?_
    rw [hopnd rfl]
    exact .reg d _
  | zeros d | ones d | set d _ =>
    refine .of_withRegs ?_
    rw [hopnd rfl]
    exact .of_check (.reg d _)
  | get _ =>
    refine .of_withRegs ?_
    rw [hopnd rfl]
    exact .of_check (.res _)
  | rdw _ =>
    refine .of_withRegs ?_
    rw [hopnd rfl]
    exact .of_check (.rwd _)
  | wrw d =>
    refine .of_withRegs ?_
    rw [hopnd rfl, hwdata d rfl]
    exact .of_check (.reg d _)

/-! ## Running a decoded command -/

theorem runCommand_of_decoded {s : State} {i : Instr} (h : s.decoded = .ok i) : runCommand s = exec i s := by
  rw [runCommand, h]

/-- LEN of a register that exists answers its length (R160). -/
theorem exec_len {s : State} {a : RegField} (h : a.toNat < s.cfg.nm) :
    exec (.len a) s = .next (s.setRes (BitVec.ofNat 64 (s.reg a).len)).ok :=
  s.withRegs_legal (List.forall_mem_singleton.mpr h) _

/-! ## The statements about running a command -/

/-- Settles O16: a command other than WRW reads no `WDATA`, and `OPND` is the same in both states. -/
theorem onlyWrwReadsWdata : Obligations.OnlyWrwReadsWdata := fun i s x hne =>
  exec_withPort i s { s.port with wdata := x } (fun _ => rfl) fun d hd => absurd hd (hne d)

/-- Settles O17: the command reads no `OPND`, and `WDATA` is the same in both states. -/
theorem otherCommandsIgnoreOpnd : Obligations.OtherCommandsIgnoreOpnd := fun i s n hno =>
  exec_withPort i s { s.port with opnd := n } (fun hyes => absurd (hno.symm.trans hyes) Bool.false_ne_true)
    fun _ _ => rfl

/-- Settles O4: the step runs the word on the ports (`step_issue`), and the decoder has checked its registers. -/
theorem stepRunsDecodedCommand : Obligations.StepRunsDecodedCommand := by
  intro s t i ht hdec
  obtain ⟨-, -, hwf⟩ := (decode_eq_ok_iff s.cfg.nm t.cmd i).mp hdec
  have hdecoded : (s.accept t).decoded = .ok i := hdec
  exact ⟨hwf, (step_issue ht).trans (runCommand_of_decoded hdecoded)⟩

/-- Settles O19: `exec` makes the check of `Instr.WellFormed` itself (`exec_eq_withRegs`). -/
theorem unnamedRegisterRaisesIllegalCommand : Obligations.UnnamedRegisterRaisesIllegalCommand := by
  intro i s hill
  obtain ⟨t, hexec⟩ := exec_eq_withRegs i s
  exact hexec.trans (s.withRegs_illegal hill t)

/-- Settles O25: the expansions by definition; NOP's word decodes to `LEN M0` (`decodeOfEncode`), and every build has
a register `M0`. -/
theorem pseudoInstructionExpansions : Obligations.PseudoInstructionExpansions := by
  intro s d i
  refine ⟨rfl, rfl, rfl, rfl, rfl, rfl, ?_⟩
  have hM0 : (0#4).toNat < s.cfg.nm := Nat.lt_of_lt_of_le (by decide) s.cfg.nm_range.1
  have hdecoded : (s.withPort (assemble (Pseudo.expand .nop))).decoded = .ok (.len 0#4) :=
    decodeOfEncode s.cfg.nm (.len 0#4) (List.forall_mem_singleton.mpr hM0)
  exact (runCommand_of_decoded hdecoded).trans (exec_len hM0)

end Sys2Proof.Machine

/-! PROOFS of the statements of 41_construction.md: ZEROS, ONES, SETALL and MOV. -/

namespace Sys2Proof.Machine

/-! ## The values (R120 to R122) -/

namespace MaskReg

variable {W NW : Nat}

/-- Three zones of words: below the tail word, the tail word, and the unallocated words above it (R121, R122). -/
theorem phys_fill (L : Nat) (v : Bool) {k : Nat} (hk : k < NW) :
    (fill W NW L v).phys k =
      if v = false then 0#W
      else if k < L / W then BitVec.allOnes W
      else if k = L / W then tailmask W L else 0#W := by
  rw [fill, phys_tailfix, phys_build, if_pos hk, len_build]
  cases v with
  | false => simp
  | true =>
    rcases Nat.lt_trichotomy k (L / W) with hbelow | rfl | habove
    · simp [nwords, hbelow, hbelow.ne, Nat.lt_succ_of_lt hbelow]
    · simp [nwords]
    · simp [nwords, habove.ne', habove.not_gt, Nat.not_lt.mpr (Nat.succ_le_of_lt habove)]

/-- `phys_fill` with the tail mask as a number. -/
theorem getElem_fill (hW : 0 < W) (L : Nat) (v : Bool) {k : Nat} (hk : k < NW) :
    (fill W NW L v).w[k] =
      if v = false then 0#W
      else if k < L / W then BitVec.allOnes W
      else if k = L / W then BitVec.ofNat W (2 ^ (L % W) - 1) else 0#W := by
  rw [← phys_of_lt _ hk, phys_fill L v hk, tailmask_eq_ofNat hW]

/-- CNT of `mk(L, f)` counts `f` below `L` (R162). -/
theorem countOnes_ofBits (hW : 0 < W) {L : Nat} (f : Nat → Bool) (hL : L ≤ NW * W) :
    (ofBits W NW L f).countOnes = (List.range L).countP f := by
  rw [(ofBits_padZero L f).countOnes_eq hW, len_ofBits]
  refine List.countP_congr fun j hj => ?_
  have hjL : j < L := List.mem_range.mp hj
  rw [bit_ofBits L f (hjL.trans_le hL), decide_eq_true hjL, Bool.true_and]

/-- The source's property of `ones(L)` (R121). -/
theorem countOnes_fill_true (hW : 0 < W) {L : Nat} (hL : L ≤ NW * W) : (fill W NW L true).countOnes = L := by
  rw [fill_eq_ofBits hW, countOnes_ofBits hW _ hL, List.countP_true, List.length_range]

theorem sameMask_self (X : MaskReg W NW) : X.sameMask X = true := (sameMask_iff X X).mpr ⟨rfl, fun _ _ => rfl⟩

end MaskReg

/-! ## A command with an operand check, its registers legal (60_exceptions.md R276, R277) -/

namespace State

variable (s : State) {rs : List RegField} {p : Prop} [Decidable p]

theorem withRegs_of_check_passed (hrs : ∀ r ∈ rs, r.toNat < s.cfg.nm) (hp : ¬p) (c : Code) (t : State) :
    s.withRegs rs (if p then s.raise c else t) = .next t := by
  rw [s.withRegs_legal hrs, if_neg hp]

theorem withRegs_of_check_failed (hrs : ∀ r ∈ rs, r.toNat < s.cfg.nm) (hp : p) (c : Code) (t : State) :
    s.withRegs rs (if p then s.raise c else t) = .next (s.raise c) := by
  rw [s.withRegs_legal hrs, if_pos hp]

end State

/-! ## The commands, their registers legal -/

section Commands

variable {s : State} {d a : RegField} (hd : d.toNat < s.cfg.nm)
include hd

theorem exec_zeros_of_le (hsize : s.opnd ≤ s.cfg.lmax) :
    exec (.zeros d) s = .next (s.setReg d (MaskReg.zeros _ _ s.opnd)).ok :=
  s.withRegs_of_check_passed (List.forall_mem_singleton.mpr hd) (Nat.not_lt.mpr hsize) _ _

theorem exec_zeros_of_gt (hsize : s.cfg.lmax < s.opnd) : exec (.zeros d) s = .next (s.raise .capacityExceeded) :=
  s.withRegs_of_check_failed (List.forall_mem_singleton.mpr hd) hsize _ _

theorem exec_ones_of_le (hsize : s.opnd ≤ s.cfg.lmax) :
    exec (.ones d) s = .next (s.setReg d (MaskReg.fill _ _ s.opnd true)).ok :=
  s.withRegs_of_check_passed (List.forall_mem_singleton.mpr hd) (Nat.not_lt.mpr hsize) _ _

theorem exec_ones_of_gt (hsize : s.cfg.lmax < s.opnd) : exec (.ones d) s = .next (s.raise .capacityExceeded) :=
  s.withRegs_of_check_failed (List.forall_mem_singleton.mpr hd) hsize _ _

theorem exec_setall (v : Bool) :
    exec (.setall d v) s = .next (s.setReg d (MaskReg.fill _ _ (s.reg d).len v)).ok :=
  s.withRegs_legal (List.forall_mem_singleton.mpr hd) _

theorem exec_mov (ha : a.toNat < s.cfg.nm) : exec (.mov d a) s = .next (s.setReg d (s.reg a)).ok :=
  s.withRegs_legal (List.forall_mem_cons.mpr ⟨hd, List.forall_mem_singleton.mpr ha⟩) _

end Commands

/-! ## The checks R121 and R123 name: CNT after ONES, EQ after MOV -/

/-- CNT of a register that exists (R162). -/
theorem exec_cnt {s : State} {a : RegField} (ha : a.toNat < s.cfg.nm) :
    exec (.cnt a) s = .next (s.setRes (BitVec.ofNat 64 (s.reg a).countOnes)).ok :=
  s.withRegs_legal (List.forall_mem_singleton.mpr ha) _

/-- EQ of two registers that exist (R240). -/
theorem exec_eq {s : State} {a b : RegField} (ha : a.toNat < s.cfg.nm) (hb : b.toNat < s.cfg.nm) :
    exec (.eq a b) s = .next (s.setRes (if (s.reg a).sameMask (s.reg b) then 1#64 else 0#64)).ok :=
  s.withRegs_legal (List.forall_mem_cons.mpr ⟨ha, List.forall_mem_singleton.mpr hb⟩) _

theorem exec_eq_of_reg_eq {s : State} {a b : RegField} (ha : a.toNat < s.cfg.nm) (hb : b.toNat < s.cfg.nm)
    (h : s.reg a = s.reg b) : exec (.eq a b) s = .next (s.setRes 1#64).ok := by
  rw [exec_eq ha hb, h, if_pos (MaskReg.sameMask_self _)]

/-- CNT after a command that wrote `T` to the register counts `T`. -/
theorem exec_cnt_after_setReg {s : State} {d : RegField} (hd : d.toNat < s.cfg.nm) (T : s.Reg) :
    exec (.cnt d) (s.setReg d T).ok = .next ((s.setReg d T).ok.setRes (BitVec.ofNat 64 T.countOnes)).ok := by
  rw [exec_cnt (s := (s.setReg d T).ok) hd, State.ok_reg, s.reg_setReg_same hd]
  rfl

theorem exec_cnt_after_ones {s : State} {d : RegField} (hd : d.toNat < s.cfg.nm) (hsize : s.opnd ≤ s.cfg.lmax) :
    exec (.cnt d) (s.setReg d (MaskReg.fill _ _ s.opnd true)).ok =
      .next ((s.setReg d (MaskReg.fill _ _ s.opnd true)).ok.setRes s.port.opnd).ok := by
  have hcapacity : s.opnd ≤ s.cfg.nw * s.cfg.W := hsize.trans (Nat.sub_le _ _)
  rw [exec_cnt_after_setReg hd, MaskReg.countOnes_fill_true (W_pos s.cfg) hcapacity, State.opnd,
    BitVec.ofNat_toNat, BitVec.setWidth_eq]

/-- The source of a copy keeps its value, also when it is the destination (R123). -/
theorem State.reg_setReg_source (s : State) (d a : RegField) : (s.setReg d (s.reg a)).reg a = s.reg a :=
  (s.reg_setReg d a (s.reg a)).trans (ite_self _)

theorem exec_eq_after_mov {s : State} {d a : RegField} (hd : d.toNat < s.cfg.nm) (ha : a.toNat < s.cfg.nm) :
    exec (.eq d a) (s.setReg d (s.reg a)).ok = .next ((s.setReg d (s.reg a)).ok.setRes 1#64).ok :=
  exec_eq_of_reg_eq (s := (s.setReg d (s.reg a)).ok) hd ha
    ((s.reg_setReg_same hd _).trans (s.reg_setReg_source d a).symm)

/-! ## The statements -/

/-- Settles O31: the words by `getElem_fill`, the bits by `fill_eq_ofBits`, the count by `exec_cnt_after_ones`. -/
theorem onesConstructsOnesMask : Obligations.OnesConstructsOnesMask := by
  intro d s hd
  have hW := W_pos s.cfg
  refine ⟨packCmd_eq_cmdWord .., fun hsize =>
    ⟨MaskReg.fill _ _ s.opnd true, rfl, fun k hk => ?_, MaskReg.fill_eq_ofBits hW _ _, exec_ones_of_le hd hsize,
      exec_cnt_after_ones hd hsize⟩, exec_ones_of_gt hd⟩
  exact (MaskReg.getElem_fill hW s.opnd true hk).trans (if_neg Bool.false_ne_true.symm)

/-- Settles O32: the words by `getElem_fill`, the bits by `fill_eq_ofBits`. -/
theorem setallFillsWithOneValue : Obligations.SetallFillsWithOneValue := by
  intro d v s hd
  have hW := W_pos s.cfg
  exact ⟨packCmd_eq_cmdWord .., MaskReg.fill _ _ (s.reg d).len v, rfl, fun k => MaskReg.getElem_fill hW _ v,
    MaskReg.fill_eq_ofBits hW _ _, exec_setall hd v⟩

/-- Settles O30: the check against `L_MAX` splits the two outcomes, and every word of `zeros` is `ZERO`. -/
theorem zerosConstructsZeroMask : Obligations.ZerosConstructsZeroMask := by
  intro d s hd
  refine ⟨packCmd_eq_cmdWord .., fun hsize =>
    ⟨MaskReg.zeros _ _ s.opnd, rfl, fun k hk => ?_, exec_zeros_of_le hd hsize⟩, exec_zeros_of_gt hd⟩
  rw [← MaskReg.phys_of_lt _ hk, MaskReg.phys_zeros]

/-- Settles O33: a register written back unchanged is the same file (`setReg_reg`); after the copy EQ compares `M[a]`
with itself (`exec_eq_after_mov`). -/
theorem movCopiesRegister : Obligations.MovCopiesRegister := by
  intro d a s hd ha
  refine ⟨packCmd_eq_cmdWord .., exec_mov hd ha, (exec_mov hd hd).trans ?_, exec_eq_after_mov hd ha⟩
  exact congrArg (fun m => Host.Outcome.next { s with m := m, status := 0#4 }) (s.setReg_reg d)

end Sys2Proof.Machine

/-! PROOFS of the statements of 42_bit_access.md: SET and GET. -/

namespace Sys2Proof.Machine

/-! ## The words SET writes (R140) -/

/-- The selector `ONE << off(i)`: an in-word offset is below `W`, so the shift of R12 is the plain one (R61). -/
theorem shlW_off {W : Nat} (hW : 0 < W) (x : Word W) (i : Nat) : shlW x (off W i) = x <<< (i % W) :=
  if_neg (Nat.not_le.mpr (Nat.mod_lt i hW))

/-- Word `i / W` is ORed with the selector or ANDed with its complement; every other word stays. -/
theorem MaskReg.getElem_writeBit {W NW : Nat} (hW : 0 < W) (X : MaskReg W NW) (i : Nat) (v : Bool) {k : Nat}
    (hk : k < NW) :
    (X.writeBit i v).w[k] =
      if k = i / W then
        (if v then X.w[k] ||| (1#W <<< (i % W)) else X.w[k] &&& ~~~(1#W <<< (i % W)))
      else X.w[k] := by
  rw [← phys_of_lt _ hk, ← phys_of_lt _ hk, writeBit, phys_setWord, shlW_off hW, widx]
  by_cases hword : k = i / W
  · subst hword
    rw [if_pos ⟨rfl, hk⟩, if_pos rfl]
  · rw [if_neg fun h => hword h.1.symm, if_neg hword]

/-! ## The commands, their register legal -/

section Commands

variable {s : State} {r : RegField} (hr : r.toNat < s.cfg.nm)
include hr

theorem exec_set_of_lt (v : Bool) (hindex : s.opnd < (s.reg r).len) :
    exec (.set r v) s = .next (s.setReg r ((s.reg r).writeBit s.opnd v)).ok :=
  s.withRegs_of_check_passed (List.forall_mem_singleton.mpr hr) (Nat.not_le.mpr hindex) _ _

theorem exec_set_of_ge (v : Bool) (hindex : (s.reg r).len ≤ s.opnd) :
    exec (.set r v) s = .next (s.raise .indexOutOfBounds) :=
  s.withRegs_of_check_failed (List.forall_mem_singleton.mpr hr) hindex _ _

theorem exec_get_of_lt (hindex : s.opnd < (s.reg r).len) :
    exec (.get r) s = .next (s.setRes (if (s.reg r).bit s.opnd then 1#64 else 0#64)).ok := by
  rw [← MaskReg.readBit_eq_bit (W_pos s.cfg)]
  exact s.withRegs_of_check_passed (List.forall_mem_singleton.mpr hr) (Nat.not_le.mpr hindex) _ _

theorem exec_get_of_ge (hindex : (s.reg r).len ≤ s.opnd) : exec (.get r) s = .next (s.raise .indexOutOfBounds) :=
  s.withRegs_of_check_failed (List.forall_mem_singleton.mpr hr) hindex _ _

end Commands

/-! ## The statements -/

/-- Settles O34: the words by `getElem_writeBit`, the bits by `bit_writeBit`, whose index is a physical one because the
length is within `L_MAX`. -/
theorem setWritesOneBit : Obligations.SetWritesOneBit := by
  intro d v s hd hbounded
  have hW := W_pos s.cfg
  refine ⟨packCmd_eq_cmdWord .., fun hindex => ?_, exec_set_of_ge hd v⟩
  have hcapacity : s.opnd < s.cfg.nw * s.cfg.W := hindex.trans_le (hbounded.trans (Nat.sub_le _ _))
  exact ⟨(s.reg d).writeBit s.opnd v, rfl, fun k => MaskReg.getElem_writeBit hW _ _ v,
    MaskReg.bit_writeBit hW _ hcapacity v, exec_set_of_lt hd v hindex⟩

/-- Settles O35: the check against `len` splits the two outcomes, and the bit test reads the logical bit
(`readBit_eq_bit`). -/
theorem getReadsOneBit : Obligations.GetReadsOneBit := fun _ _ ha =>
  ⟨packCmd_eq_cmdWord .., exec_get_of_lt ha, exec_get_of_ge ha⟩

end Sys2Proof.Machine

/-! PROOFS of the statements of 43_aggregate.md: LEN, NWD, CNT, TZC and CFG. -/

namespace Sys2Proof.Machine

/-! ## The values (R160 to R162) -/

namespace MaskReg

variable {W NW : Nat} {X : MaskReg W NW}

theorem Bounded.len_le_capacity (h : X.Bounded) : X.len ≤ NW * W := h.trans (Nat.sub_le _ _)

/-- `L_MAX` leaves room for the reserved word: a legal length ends in a physical word (R161). -/
theorem Bounded.nwords_le (h : X.Bounded) (hcapacity : 0 < NW * W) : nwords W X.len ≤ NW :=
  div_lt_of_lt_capacity (h.trans_lt (Nat.sub_lt hcapacity one_pos))

/-- The words above the allocated ones add nothing to the sum (R162). -/
theorem Inv.countOnes_eq_sum_physical (h : X.Inv) (hW : 0 < W) :
    X.countOnes = ((List.range NW).map fun k => popcount (X.phys k)).sum := by
  obtain ⟨hbounded, hpad⟩ := h
  rw [hpad.countOnes_eq hW, sum_popcount, hpad.countP_bit hbounded.len_le_capacity]

theorem PadZero.countOnes_le_len (h : X.PadZero) (hW : 0 < W) : X.countOnes ≤ X.len := by
  rw [h.countOnes_eq hW]
  exact List.countP_le_length.trans_eq List.length_range

end MaskReg

/-! ## The configuration word (R164) -/

/-- A value that still fits after the shift loses no bit. -/
theorem toNat_ofNat_shiftLeft {n i : Nat} (h : n * 2 ^ i < 2 ^ 64) : (BitVec.ofNat 64 n <<< i).toNat = n <<< i := by
  rw [BitVec.toNat_shiftLeft, BitVec.toNat_ofNat, Nat.shiftLeft_eq, Nat.mod_mul_mod, Nat.mod_eq_of_lt h,
    Nat.shiftLeft_eq]

/-- The three parameters lie side by side in the word: none reaches the next one's field. -/
theorem toNat_configWord (p : Params) : (configWord p).toNat = p.nm * 2 ^ 48 + (p.nw * 2 ^ 16 + p.W) := by
  have hW := W_le p
  have hnw := p.nw_range.2
  have hnm := p.nm_range.2
  have hlow : p.W < 2 ^ 16 := by omega
  have hmid : p.nw <<< 16 + p.W < 2 ^ 48 := by rw [Nat.shiftLeft_eq]; omega
  calc (configWord p).toNat
      = p.nm <<< 48 ||| (p.nw <<< 16 ||| p.W) := by
        rw [configWord, BitVec.toNat_or, BitVec.toNat_or, toNat_ofNat_shiftLeft (by omega),
          toNat_ofNat_shiftLeft (by omega), BitVec.toNat_ofNat, Nat.mod_eq_of_lt (by omega), Nat.or_comm,
          Nat.or_comm p.W]
    _ = p.nm <<< 48 + (p.nw <<< 16 + p.W) := by
        rw [← Nat.shiftLeft_add_eq_or_of_lt hlow, ← Nat.shiftLeft_add_eq_or_of_lt hmid]
    _ = p.nm * 2 ^ 48 + (p.nw * 2 ^ 16 + p.W) := by rw [Nat.shiftLeft_eq, Nat.shiftLeft_eq]

/-- A field of the configuration word as a number. -/
theorem toNat_field_configWord (p : Params) (lo n : Nat) :
    ((configWord p).extractLsb' lo n).toNat =
      (p.nm * 2 ^ 48 + (p.nw * 2 ^ 16 + p.W)) / 2 ^ lo % 2 ^ n := by
  rw [BitVec.extractLsb'_toNat, toNat_configWord, Nat.shiftRight_eq_div_pow]

/-- Each field holds its parameter, and the version field above them holds 0. -/
theorem configWord_fields (p : Params) :
    ((configWord p).extractLsb' 0 16).toNat = p.W ∧ ((configWord p).extractLsb' 16 32).toNat = p.nw ∧
      ((configWord p).extractLsb' 48 8).toNat = p.nm ∧ (configWord p).extractLsb' 56 8 = 0#8 := by
  have hW := W_le p
  have hnw := p.nw_range.2
  have hnm := p.nm_range.2
  rw [← BitVec.toNat_inj, BitVec.toNat_ofNat]
  simp only [toNat_field_configWord]
  omega

/-! ## The commands, their register legal -/

section Commands

variable {s : State} {a : RegField} (ha : a.toNat < s.cfg.nm)
include ha

theorem exec_nwd : exec (.nwd a) s = .next (s.setRes (BitVec.ofNat 64 (nwords s.cfg.W (s.reg a).len))).ok :=
  s.withRegs_legal (List.forall_mem_singleton.mpr ha) _

theorem exec_tzc : exec (.tzc a) s = .next (s.setRes (BitVec.ofNat 64 (s.reg a).trailingZeros)).ok :=
  s.withRegs_legal (List.forall_mem_singleton.mpr ha) _

end Commands

/-- CFG names no register, so no register check can fail. -/
theorem exec_cfg (s : State) : exec .cfg s = .next (s.setRes (configWord s.cfg)).ok :=
  s.withRegs_legal (List.forall_mem_nil _) _

/-! ## The statements -/

/-- Settles O37: the count fits `RES` because a legal length ends in a physical word (`Bounded.nwords_le`). -/
theorem nwdReadsWordCount : Obligations.NwdReadsWordCount := by
  intro a s ha hbounded
  have hle : nwords s.cfg.W (s.reg a).len ≤ s.cfg.nw := hbounded.nwords_le (capacity_pos s.cfg)
  have hres := toNat_ofNat_of_le_capacity s.cfg (hle.trans (Nat.le_mul_of_pos_right _ (W_pos s.cfg)))
  refine ⟨packCmd_eq_cmdWord .., BitVec.ofNat 64 (nwords s.cfg.W (s.reg a).len), hres, ?_, ?_, exec_nwd ha⟩
  · rw [hres]
    exact Nat.succ_pos _
  · rw [hres]
    exact hle

/-- Settles O38: the two sums and the bit count are one number (`countOnes_eq_sum_physical`, `countOnes_eq`), which is
at most `len` and so fits `RES`. -/
theorem cntCountsSetBits : Obligations.CntCountsSetBits := by
  intro a s ha hinv
  have ⟨hbounded, hpad⟩ := hinv
  have hW := W_pos s.cfg
  have hle := hpad.countOnes_le_len hW
  have hres := toNat_ofNat_of_le_capacity s.cfg (hle.trans hbounded.len_le_capacity)
  exact ⟨packCmd_eq_cmdWord .., BitVec.ofNat 64 (s.reg a).countOnes, hres,
    hres.trans (hinv.countOnes_eq_sum_physical hW), hres.trans (hpad.countOnes_eq hW), hres.trans_le hle, exec_cnt ha⟩

/-- Settles O39: the scan answers the lowest set index or `len` (`PadZero.trailingZeros_spec`), which fits `RES`. -/
theorem tzcFindsLowestSetBit : Obligations.TzcFindsLowestSetBit := by
  rintro a s ha ⟨hbounded, hpad⟩
  obtain ⟨hle, hbelow, hset⟩ := hpad.trailingZeros_spec
  have hres := toNat_ofNat_of_le_capacity s.cfg (hle.trans hbounded.len_le_capacity)
  refine ⟨packCmd_eq_cmdWord .., BitVec.ofNat 64 (s.reg a).trailingZeros, ?_⟩
  rw [hres]
  exact ⟨hle, hbelow, hset, exec_tzc ha⟩

/-- Settles O40: the fields by `configWord_fields`. -/
theorem cfgReadsBuildParameters : Obligations.CfgReadsBuildParameters := by
  intro s
  obtain ⟨hW, hnw, hnm, hversion⟩ := configWord_fields s.cfg
  exact ⟨packCmd_eq_cmdWord .., configWord s.cfg, rfl, hW, hnw, hnm, hversion, exec_cfg s⟩

/-- Settles O36: a length within `L_MAX` fits `RES`. -/
theorem lenReadsLength : Obligations.LenReadsLength := by
  intro a s ha hbounded
  have hres := toNat_ofNat_of_le_capacity s.cfg hbounded.len_le_capacity
  exact ⟨packCmd_eq_cmdWord .., BitVec.ofNat 64 (s.reg a).len, hres, hres.trans_le hbounded, exec_len ha⟩

end Sys2Proof.Machine

/-! PROOFS of the statements of 44_boolean.md: AND, OR, XOR, NOT, ANDA, ORA and XORA. -/

namespace Sys2Proof.Machine

/-! ## The values (R180 to R187) -/

namespace MaskReg

variable {W NW : Nat} {A B : MaskReg W NW} {op : Word W → Word W → Word W}

/-- The value of AND, OR and XOR: the word lanes at the longer operand's length (R180 to R182). -/
def binary (op : Word W → Word W → Word W) (A B : MaskReg W NW) : MaskReg W NW :=
  combine op (max A.len B.len) A B

theorem len_binary (op : Word W → Word W → Word W) (A B : MaskReg W NW) :
    (binary op A B).len = max A.len B.len := rfl

theorem phys_binary (op : Word W → Word W → Word W) (A B : MaskReg W NW) (k : Nat) :
    (binary op A B).phys k =
      if k < NW ∧ k < nwords W (max A.len B.len) then op (A.word k) (B.word k) else 0#W :=
  phys_combine op _ A B k

theorem getElem_combine (op : Word W → Word W → Word W) (L : Nat) (A B : MaskReg W NW) {k : Nat} (hk : k < NW) :
    (combine op L A B).w[k] = if k < L / W + 1 then op (A.word k) (B.word k) else 0#W := by
  rw [← phys_of_lt _ hk, phys_combine]
  exact if_congr (and_iff_right hk) rfl rfl

/-- In an allocated lane the left lookup of ANDA is the physical word (R184). -/
theorem getElem_combine_own_len (op : Word W → Word W → Word W) (A B : MaskReg W NW) {k : Nat} (hk : k < NW) :
    (combine op A.len A B).w[k] = if k < A.len / W + 1 then op A.w[k] (B.word k) else 0#W := by
  rw [getElem_combine op A.len A B hk]
  split
  · next halloc => rw [A.word_of_lt halloc, A.phys_of_lt hk]
  · rfl

theorem nwords_mono {L M : Nat} (h : L ≤ M) : nwords W L ≤ nwords W M :=
  Nat.succ_le_succ (Nat.div_le_div_right h)

/-- The lookups of the result combine the lookups of the operands at every index: where the result is not allocated,
neither operand is, and the operator gives `ZERO` on two implicit `ZERO`s (20_memory.md R63). -/
theorem word_binary (hzero : op 0#W 0#W = 0#W) (A B : MaskReg W NW) (k : Nat) :
    (binary op A B).word k = op (A.word k) (B.word k) := by
  by_cases hphys : k < NW
  · by_cases halloc : k < nwords W (max A.len B.len)
    · rw [word_of_lt _ (show k < nwords W (binary op A B).len from halloc), phys_binary, if_pos ⟨hphys, halloc⟩]
    · have habove := Nat.not_lt.mp halloc
      rw [word_of_nwords_le _ (show nwords W (binary op A B).len ≤ k from habove),
        A.word_of_nwords_le ((nwords_mono (le_max_left _ _)).trans habove),
        B.word_of_nwords_le ((nwords_mono (le_max_right _ _)).trans habove), hzero]
  · have hge := Nat.not_lt.mp hphys
    rw [word_of_ge _ hge, A.word_of_ge hge, B.word_of_ge hge, hzero]

theorem binary_assoc (hzero : op 0#W 0#W = 0#W) (hassoc : ∀ x y z, op (op x y) z = op x (op y z))
    (A B C : MaskReg W NW) : binary op (binary op A B) C = binary op A (binary op B C) :=
  ext_phys (max_assoc _ _ _) fun k _ => by
    rw [phys_binary, phys_binary, word_binary hzero, word_binary hzero, hassoc, len_binary, len_binary, max_assoc]

theorem binary_comm (hcomm : ∀ x y, op x y = op y x) (A B : MaskReg W NW) : binary op A B = binary op B A :=
  ext_phys (max_comm _ _) fun k _ => by rw [phys_binary, phys_binary, hcomm, max_comm]

/-- An idempotent operator on one value twice gives that value. -/
theorem PadZero.combine_self (hA : A.PadZero) (hidem : ∀ x, op x x = x) : combine op A.len A A = A :=
  ext_phys rfl fun k hk => by
    rw [phys_combine, hidem, ← hA.word_eq_phys]
    split
    · rfl
    · next hout => exact (A.word_of_nwords_le (Nat.not_lt.mp fun h => hout ⟨hk, h⟩)).symm

theorem PadZero.binary_self (hA : A.PadZero) (hidem : ∀ x, op x x = x) : binary op A A = A := by
  rw [binary, max_self, hA.combine_self hidem]

/-- XOR of a value with itself is `zeros(len)`, whatever its padding: every lane is `ZERO` (R182). -/
theorem binary_xor_self (hW : 0 < W) (A : MaskReg W NW) :
    binary (· ^^^ ·) A A = ofBits W NW A.len fun _ => false := by
  rw [← zeros_eq_ofBits hW]
  refine ext_phys (max_self _) fun k _ => ?_
  rw [phys_binary, phys_zeros]
  simp

/-- AND, OR and XOR bit by bit: both sides are 0 above the longer length (R187). -/
theorem binary_eq_ofBits (hW : 0 < W) {g : Bool → Bool → Bool}
    (hop : ∀ x y b, b < W → (op x y).getLsbD b = g (x.getLsbD b) (y.getLsbD b)) (hg : g false false = false)
    (hA : A.PadZero) (hB : B.PadZero) :
    binary op A B = ofBits W NW (max A.len B.len) fun j => g (A.bit j) (B.bit j) :=
  combine_eq_ofBits hW hop hA hB fun j hj => by
    rw [hA.bit_eq_false ((le_max_left _ _).trans hj), hB.bit_eq_false ((le_max_right _ _).trans hj), hg]

/-- ANDA bit by bit: the left side is 0 above its own length, so nothing of the right side gets there (R187). -/
theorem combine_and_own_len_eq_ofBits (hW : 0 < W) (hA : A.PadZero) (hB : B.PadZero) :
    combine (· &&& ·) A.len A B = ofBits W NW A.len fun j => A.bit j && B.bit j :=
  combine_eq_ofBits hW getLsbD_and_bitwise hA hB fun j hj => by rw [hA.bit_eq_false hj, Bool.false_and]

theorem bit_ofBits_false (L j : Nat) : (ofBits W NW L fun _ => false).bit j = false := by
  by_cases hj : j < NW * W
  · rw [bit_ofBits _ _ hj, Bool.and_false]
  · exact bit_of_ge _ (Nat.not_lt.mp hj)

/-- Combining with `zeros(n)` by an operator for which 0 is neutral keeps the bits, at the longer length (R188). -/
theorem binary_zeros (hW : 0 < W) {g : Bool → Bool → Bool}
    (hop : ∀ x y b, b < W → (op x y).getLsbD b = g (x.getLsbD b) (y.getLsbD b)) (hg : ∀ p, g p false = p)
    (hA : A.PadZero) (n : Nat) :
    binary op A (ofBits W NW n fun _ => false) = ofBits W NW (max A.len n) A.bit := by
  rw [binary_eq_ofBits hW hop (hg false) hA (ofBits_padZero n _), len_ofBits]
  simp only [bit_ofBits_false, hg]

/-- `zeros(n)` is neutral for OR exactly when it is not longer (R188). -/
theorem binary_or_zeros_eq_self_iff (hW : 0 < W) (hA : A.PadZero) (n : Nat) :
    binary (· ||| ·) A (ofBits W NW n fun _ => false) = A ↔ n ≤ A.len := by
  constructor
  · intro h
    exact max_eq_left_iff.mp (congrArg MaskReg.len h)
  · intro hn
    rw [binary_zeros hW getLsbD_or_bitwise Bool.or_false hA, max_eq_left hn]
    exact hA.eq_ofBits.symm

/-- `ones(len)` is neutral for AND: it is set wherever a padded value can be (R188). -/
theorem binary_and_ones (hW : 0 < W) (hA : A.PadZero) :
    binary (· &&& ·) A (ofBits W NW A.len fun _ => true) = A := by
  rw [binary_eq_ofBits hW getLsbD_and_bitwise rfl hA (ofBits_padZero _ _)]
  refine ext_bit (max_self _) fun j hj => ?_
  rw [bit_ofBits _ _ hj, bit_ofBits _ _ hj, len_ofBits, max_self]
  by_cases hlen : j < A.len
  · simp [hlen]
  · simp [hlen, hA j hj (Nat.not_lt.mp hlen)]

/-! ### NOT (R183) -/

/-- Three zones of words: below the tail word, the tail word, and the unallocated words above it. -/
theorem getElem_complement (hW : 0 < W) (A : MaskReg W NW) {k : Nat} (hk : k < NW) :
    A.complement.w[k] =
      if k < A.len / W then ~~~A.w[k]
      else if k = A.len / W then ~~~A.w[k] &&& BitVec.ofNat W (2 ^ (A.len % W) - 1)
      else 0#W := by
  rw [← phys_of_lt _ hk, ← phys_of_lt _ hk, phys_complement, tailmask_eq_ofNat hW]
  rcases Nat.lt_trichotomy k (A.len / W) with hbelow | rfl | habove
  · simp [nwords, hk, hbelow, hbelow.ne, Nat.lt_succ_of_lt hbelow]
  · simp [nwords, hk]
  · simp [nwords, habove.ne', habove.not_gt, Nat.not_lt.mpr (Nat.succ_le_of_lt habove)]

theorem PadZero.complement_complement (hA : A.PadZero) (hW : 0 < W) : A.complement.complement = A := by
  rw [complement_eq_ofBits hW, len_complement, complement_eq_ofBits hW]
  refine ext_bit rfl fun j hj => ?_
  rw [bit_ofBits _ _ hj, bit_ofBits _ _ hj]
  by_cases hlen : j < A.len
  · simp [hlen]
  · simp [hlen, hA j hj (Nat.not_lt.mp hlen)]

end MaskReg

/-! ## The commands -/

/-- The check of the register fields depends on which fields are used, not on their order. -/
theorem State.withRegs_perm (s : State) {rs rs' : List RegField} (h : rs.Perm rs') (t : State) :
    s.withRegs rs t = s.withRegs rs' t := by
  simp only [State.withRegs, h.mem_iff]

/-- A command that writes a register's own value back changes `STATUS` alone. -/
theorem State.setReg_reg_ok (s : State) (d : RegField) :
    (s.setReg d (s.reg d)).ok = { s with status := 0#4 } :=
  congrArg (fun m => { s with m := m, status := 0#4 }) (s.setReg_reg d)

/-- An outcome that writes `T` to `M[d]`, with the value said another way. -/
theorem State.next_setReg_ok_congr {s : State} {d : RegField} {T U : s.Reg} {o : Host.Outcome State Fault Refusal}
    (h : o = .next (s.setReg d T).ok) (hval : T = U) :
    o = .next { s with m := s.m.setIfInBounds d.toNat U, status := 0#4 } := hval ▸ h

/-- `i` is the command of the non-mutating form of the word operator `op` (R180 to R182). -/
def ComputesBinary (i : RegField → RegField → RegField → Instr) (op : ∀ W, Word W → Word W → Word W) : Prop :=
  ∀ d a b s, exec (i d a b) s =
    s.withRegs [d, a, b] (s.setReg d (MaskReg.binary (op s.cfg.W) (s.reg a) (s.reg b))).ok

theorem computesBinary_and : ComputesBinary .and fun _ => (· &&& ·) := fun _ _ _ _ => rfl

theorem computesBinary_or : ComputesBinary .or fun _ => (· ||| ·) := fun _ _ _ _ => rfl

theorem computesBinary_xor : ComputesBinary .xor fun _ => (· ^^^ ·) := fun _ _ _ _ => rfl

namespace ComputesBinary

variable {i : RegField → RegField → RegField → Instr} {op : ∀ W, Word W → Word W → Word W}

theorem exec_legal (h : ComputesBinary i op) {s : State} {d a b : RegField} (hd : d.toNat < s.cfg.nm)
    (ha : a.toNat < s.cfg.nm) (hb : b.toNat < s.cfg.nm) :
    exec (i d a b) s = .next (s.setReg d (MaskReg.binary (op s.cfg.W) (s.reg a) (s.reg b))).ok :=
  (h d a b s).trans (s.withRegs_legal (by simp [hd, ha, hb]) _)

/-- Swapping the sources changes neither the check of the fields nor the value. -/
theorem exec_comm (h : ComputesBinary i op) (hcomm : ∀ W x y, op W x y = op W y x) (d a b : RegField) (s : State) :
    exec (i d a b) s = exec (i d b a) s := by
  rw [h d a b s, h d b a s, MaskReg.binary_comm (hcomm _), s.withRegs_perm (.cons d (.swap b a []))]

/-- `op` with `M[d]`, which an earlier command wrote, on the left and another register on the right. -/
theorem exec_after_write_left (h : ComputesBinary i op) {s : State} {d c : RegField} (hd : d.toNat < s.cfg.nm)
    (hc : c.toNat < s.cfg.nm) (hdc : d ≠ c) (T : s.Reg) :
    exec (i d d c) (s.setReg d T).ok = .next (s.setReg d (MaskReg.binary (op s.cfg.W) T (s.reg c))).ok := by
  rw [h.exec_legal (s := (s.setReg d T).ok) hd hd hc, State.ok_reg, State.ok_reg, s.reg_setReg_same hd,
    s.reg_setReg_ne hdc]
  exact congrArg Host.Outcome.next (s.setReg_ok_setReg d T _)

theorem exec_after_write_right (h : ComputesBinary i op) {s : State} {d a : RegField} (hd : d.toNat < s.cfg.nm)
    (ha : a.toNat < s.cfg.nm) (hda : d ≠ a) (U : s.Reg) :
    exec (i d a d) (s.setReg d U).ok = .next (s.setReg d (MaskReg.binary (op s.cfg.W) (s.reg a) U)).ok := by
  rw [h.exec_legal (s := (s.setReg d U).ok) hd ha hd, State.ok_reg, State.ok_reg, s.reg_setReg_same hd,
    s.reg_setReg_ne hda]
  exact congrArg Host.Outcome.next (s.setReg_ok_setReg d U _)

/-- The two ways to bracket three operands leave the same state (R188). -/
theorem exec_assoc (h : ComputesBinary i op) (hzero : ∀ W, op W 0#W 0#W = 0#W)
    (hassoc : ∀ W x y z, op W (op W x y) z = op W x (op W y z)) {s : State} {d a b c : RegField}
    (hd : d.toNat < s.cfg.nm) (ha : a.toNat < s.cfg.nm) (hb : b.toNat < s.cfg.nm) (hc : c.toNat < s.cfg.nm)
    (hda : d ≠ a) (hdc : d ≠ c) :
    ∃ T U V : s.Reg, exec (i d a b) s = .next (s.setReg d T).ok ∧
      exec (i d d c) (s.setReg d T).ok = .next (s.setReg d V).ok ∧
      exec (i d b c) s = .next (s.setReg d U).ok ∧
      exec (i d a d) (s.setReg d U).ok = .next (s.setReg d V).ok := by
  refine ⟨_, _, _, h.exec_legal hd ha hb, h.exec_after_write_left hd hc hdc _, h.exec_legal hd hb hc, ?_⟩
  rw [MaskReg.binary_assoc (hzero _) (hassoc _)]
  exact h.exec_after_write_right hd ha hda _

end ComputesBinary

section Commands

variable {s : State} {d a b : RegField} (hd : d.toNat < s.cfg.nm)
include hd

theorem exec_not (ha : a.toNat < s.cfg.nm) : exec (.not d a) s = .next (s.setReg d (s.reg a).complement).ok :=
  s.withRegs_legal (by simp [hd, ha]) _

/-- NOT in place, after a command that wrote `T`. -/
theorem exec_not_after_write (T : s.Reg) :
    exec (.not d d) (s.setReg d T).ok = .next (s.setReg d T.complement).ok := by
  rw [exec_not (s := (s.setReg d T).ok) hd hd, State.ok_reg, s.reg_setReg_same hd]
  exact congrArg Host.Outcome.next (s.setReg_ok_setReg d T _)

/-- NOT of the complement of `M[a]` gives the value of `M[a]` back (R183). -/
theorem exec_not_after_not (ha : (s.reg a).PadZero) :
    exec (.not d d) (s.setReg d (s.reg a).complement).ok = .next (s.setReg d (s.reg a)).ok := by
  rw [exec_not_after_write hd, ha.complement_complement (W_pos s.cfg)]

theorem exec_anda (hb : b.toNat < s.cfg.nm) :
    exec (.anda d b) s = .next (s.setReg d (MaskReg.combine (· &&& ·) (s.reg d).len (s.reg d) (s.reg b))).ok :=
  s.withRegs_legal (by simp [hd, hb]) _

theorem exec_ora (hb : b.toNat < s.cfg.nm) :
    exec (.ora d b) s = .next (s.setReg d (MaskReg.binary (· ||| ·) (s.reg d) (s.reg b))).ok :=
  s.withRegs_legal (by simp [hd, hb]) _

theorem exec_xora (hb : b.toNat < s.cfg.nm) :
    exec (.xora d b) s = .next (s.setReg d (MaskReg.binary (· ^^^ ·) (s.reg d) (s.reg b))).ok :=
  s.withRegs_legal (by simp [hd, hb]) _

end Commands

/-! ## The statements -/

/-- Settles O41: the words by `getElem_combine`; one register with itself by `binary_self` and `binary_xor_self`, and
XOR with a longer `zeros(n)` by `binary_zeros`. -/
theorem binaryOperatorsWordByWord : Obligations.BinaryOperatorsWordByWord := by
  intro d a b s hd ha hb
  have hW := W_pos s.cfg
  refine ⟨⟨packCmd_eq_cmdWord .., MaskReg.binary (· &&& ·) (s.reg a) (s.reg b), rfl,
      fun _ => MaskReg.getElem_combine _ _ _ _, ?_, computesBinary_and.exec_legal hd ha hb⟩,
    ⟨packCmd_eq_cmdWord .., MaskReg.binary (· ||| ·) (s.reg a) (s.reg b), rfl,
      fun _ => MaskReg.getElem_combine _ _ _ _, ?_, computesBinary_or.exec_legal hd ha hb⟩,
    ⟨packCmd_eq_cmdWord .., MaskReg.binary (· ^^^ ·) (s.reg a) (s.reg b), rfl,
      fun _ => MaskReg.getElem_combine _ _ _ _, ?_, fun n hpad hlen hzeros => ?_,
      computesBinary_xor.exec_legal hd ha hb⟩⟩
  · rintro rfl hpad
    exact hpad.binary_self fun _ => BitVec.and_self
  · rintro rfl hpad
    exact hpad.binary_self fun _ => BitVec.or_self
  · rintro rfl
    exact MaskReg.binary_xor_self hW _
  · rw [hzeros, MaskReg.binary_zeros hW getLsbD_xor_bitwise Bool.xor_false hpad, max_eq_right hlen]

/-- Settles O42: ORA and XORA compute the value of OR and XOR with `a = d`; ANDA combines at its own length, where an
idempotent operator gives the same value back. -/
theorem compoundOperatorsWordByWord : Obligations.CompoundOperatorsWordByWord := by
  intro d b s hd hb
  have hW := W_pos s.cfg
  refine ⟨⟨packCmd_eq_cmdWord .., MaskReg.combine (· &&& ·) (s.reg d).len (s.reg d) (s.reg b), rfl,
      fun _ => MaskReg.getElem_combine_own_len _ _ _, ?_, exec_anda hd hb⟩,
    ⟨packCmd_eq_cmdWord .., MaskReg.binary (· ||| ·) (s.reg d) (s.reg b), rfl,
      fun _ => MaskReg.getElem_combine _ _ _ _,
      (exec_ora hd hb).trans (computesBinary_or.exec_legal hd hd hb).symm, ?_,
      exec_ora hd hb⟩,
    ⟨packCmd_eq_cmdWord .., MaskReg.binary (· ^^^ ·) (s.reg d) (s.reg b), rfl,
      fun _ => MaskReg.getElem_combine _ _ _ _,
      (exec_xora hd hb).trans (computesBinary_xor.exec_legal hd hd hb).symm, ?_,
      exec_xora hd hb⟩⟩
  · rintro rfl hpad
    rw [exec_anda hd hd, hpad.combine_self fun _ => BitVec.and_self, s.setReg_reg_ok]
  · rintro rfl hpad
    rw [exec_ora hd hd, hpad.binary_self fun _ => BitVec.or_self, s.setReg_reg_ok]
  · rintro rfl
    exact MaskReg.binary_xor_self hW _

/-- Settles O43: the words by `getElem_complement`, the bits by `complement_eq_ofBits`. -/
theorem notInvertsLogicalBits : Obligations.NotInvertsLogicalBits := by
  intro d a s hd ha
  have hW := W_pos s.cfg
  exact ⟨packCmd_eq_cmdWord .., (s.reg a).complement, rfl, fun _ => MaskReg.getElem_complement hW _,
    MaskReg.complement_eq_ofBits hW _, exec_not hd ha, exec_not_after_not hd⟩

/-- Settles O44: each command's value is the `mk` value R187 lists, as both sources are padded with zeros. -/
theorem booleanOperatorsBitByBit : Obligations.BooleanOperatorsBitByBit := by
  intro d a b s hd ha hb hinv
  have hW := W_pos s.cfg
  have hD := hinv.reg_padZero hd
  have hA := hinv.reg_padZero ha
  have hB := hinv.reg_padZero hb
  exact ⟨
    State.next_setReg_ok_congr (computesBinary_and.exec_legal hd ha hb)
      (MaskReg.binary_eq_ofBits hW getLsbD_and_bitwise rfl hA hB),
    State.next_setReg_ok_congr (computesBinary_or.exec_legal hd ha hb)
      (MaskReg.binary_eq_ofBits hW getLsbD_or_bitwise rfl hA hB),
    State.next_setReg_ok_congr (computesBinary_xor.exec_legal hd ha hb)
      (MaskReg.binary_eq_ofBits hW getLsbD_xor_bitwise rfl hA hB),
    State.next_setReg_ok_congr (exec_not hd ha) (MaskReg.complement_eq_ofBits hW _),
    State.next_setReg_ok_congr (exec_anda hd hb) (MaskReg.combine_and_own_len_eq_ofBits hW hD hB),
    State.next_setReg_ok_congr (exec_ora hd hb) (MaskReg.binary_eq_ofBits hW getLsbD_or_bitwise rfl hD hB),
    State.next_setReg_ok_congr (exec_xora hd hb) (MaskReg.binary_eq_ofBits hW getLsbD_xor_bitwise rfl hD hB)⟩

/-- Settles O45, from the commutativity of the word operators (`exec_comm`). -/
theorem binaryOperatorsCommute : Obligations.BinaryOperatorsCommute := fun d a b s =>
  ⟨computesBinary_and.exec_comm (fun _ => BitVec.and_comm) d a b s,
    computesBinary_or.exec_comm (fun _ => BitVec.or_comm) d a b s,
    computesBinary_xor.exec_comm (fun _ => BitVec.xor_comm) d a b s⟩

/-- Settles O46, from the associativity of the word operators (`exec_assoc`). -/
theorem binaryOperatorsAssociate : Obligations.BinaryOperatorsAssociate := by
  rintro op (rfl | rfl | rfl) d a b c s hd ha hb hc hda hdc -
  · exact computesBinary_and.exec_assoc (fun _ => BitVec.and_self) (fun _ => BitVec.and_assoc) hd ha hb hc hda hdc
  · exact computesBinary_or.exec_assoc (fun _ => BitVec.or_self) (fun _ => BitVec.or_assoc) hd ha hb hc hda hdc
  · exact computesBinary_xor.exec_assoc (fun _ => BitVec.xor_self) (fun _ => BitVec.xor_assoc) hd ha hb hc hda hdc

/-- Settles O47: `zeros(n)` by `binary_or_zeros_eq_self_iff` and `binary_zeros`, `ones(len)` by `binary_and_ones`, XOR
with itself by `binary_xor_self`, NOT twice by `exec_not_after_not`. -/
theorem booleanIdentityLaws : Obligations.BooleanIdentityLaws := by
  intro d a b s hd ha hb hinv
  have hW := W_pos s.cfg
  have hA := hinv.reg_padZero ha
  refine ⟨fun n hzeros => ⟨MaskReg.binary (· ||| ·) (s.reg a) (s.reg b), computesBinary_or.exec_legal hd ha hb, ?_,
    fun hlen => ?_⟩, fun hones => State.next_setReg_ok_congr (computesBinary_and.exec_legal hd ha hb) ?_,
    State.next_setReg_ok_congr (computesBinary_xor.exec_legal hd ha ha) (MaskReg.binary_xor_self hW _),
    (s.reg a).complement, exec_not hd ha, exec_not_after_not hd hA⟩
  · rw [hzeros]
    exact MaskReg.binary_or_zeros_eq_self_iff hW hA n
  · rw [hzeros, MaskReg.binary_zeros hW getLsbD_or_bitwise Bool.or_false hA, max_eq_right hlen.le]
  · rw [hones, MaskReg.binary_and_ones hW hA]

end Sys2Proof.Machine

/-! PROOFS of the statements of 45_shift.md: SHR, SHL, SHRA and SHLA. -/

namespace Sys2Proof.Machine

/-! ## The values (R210, R211, R214) -/

namespace MaskReg

variable {W NW : Nat} {A : MaskReg W NW}

/-! ### The words -/

theorem getElem_shiftRight (A : MaskReg W NW) (n : Nat) {k : Nat} (hk : k < NW) :
    (A.shiftRight n).w[k] =
      shrW (A.word (k + n / W)) (n % W) |||
        (if n % W = 0 then 0#W else shlW (A.word (k + n / W + 1)) (W - n % W)) :=
  getElem_tabulate _ _ k hk

/-- Three zones of words: the tail word is masked, those below it are not, those above it are `ZERO` (R211). -/
theorem getElem_shiftLeft (hW : 0 < W) (A : MaskReg W NW) (n : Nat) {k : Nat} (hk : k < NW) :
    (A.shiftLeft n).w[k] =
      if A.len / W < k then 0#W
      else (shlW (if n / W ≤ k then A.word (k - n / W) else 0#W) (n % W) |||
          (if n % W = 0 ∨ k < n / W + 1 then 0#W else shrW (A.word (k - n / W - 1)) (W - n % W))) &&&
        (if k = A.len / W then BitVec.ofNat W (2 ^ (A.len % W) - 1) else BitVec.allOnes W) := by
  rw [← phys_of_lt _ hk, shiftLeft, phys_tailfix, phys_build, if_pos hk, len_build, tailmask_eq_ofNat hW]
  by_cases habove : A.len / W < k
  · rw [if_neg habove.ne', if_pos (show k ≥ nwords W A.len from habove), if_pos habove]
  · rw [if_neg (show ¬k ≥ nwords W A.len from habove), if_neg habove]
    split
    · rfl
    · exact BitVec.and_allOnes.symm

/-! ### The bits, at every index -/

theorem Inv.shiftRight (h : A.Inv) (hW : 0 < W) (n : Nat) : (A.shiftRight n).Inv := by
  rw [shiftRight_eq_ofBits hW h.2]
  exact ofBits_inv h.1

theorem Inv.shiftLeft (h : A.Inv) (hW : 0 < W) (n : Nat) : (A.shiftLeft n).Inv := by
  rw [shiftLeft_eq_ofBits hW h.2]
  exact ofBits_inv h.1

theorem Inv.bit_shiftRight (h : A.Inv) (hW : 0 < W) (n j : Nat) : (A.shiftRight n).bit j = A.bit (j + n) := by
  obtain ⟨hbounded, hpad⟩ := h
  rw [shiftRight_eq_ofBits hW hpad, bit_ofBits_of_le _ hbounded]
  by_cases hj : j < A.len
  · simp [hj]
  · simp [hj, hpad.bit_eq_false (Nat.le_add_right_of_le (Nat.not_lt.mp hj))]

theorem Inv.bit_shiftLeft (h : A.Inv) (hW : 0 < W) (n j : Nat) :
    (A.shiftLeft n).bit j = (decide (j < A.len) && (decide (n ≤ j) && A.bit (j - n))) := by
  obtain ⟨hbounded, hpad⟩ := h
  rw [shiftLeft_eq_ofBits hW hpad, bit_ofBits_of_le _ hbounded]

/-! ### No shift, and a shift by the whole length or more -/

theorem PadZero.shiftRight_zero (hA : A.PadZero) (hW : 0 < W) : A.shiftRight 0 = A :=
  (shiftRight_eq_ofBits hW hA 0).trans hA.eq_ofBits.symm

theorem PadZero.shiftLeft_zero (hA : A.PadZero) (hW : 0 < W) : A.shiftLeft 0 = A := by
  rw [shiftLeft_eq_ofBits hW hA]
  simp only [Nat.zero_le, decide_true, Bool.true_and, Nat.sub_zero]
  exact hA.eq_ofBits.symm

theorem PadZero.shiftRight_of_len_le (hA : A.PadZero) (hW : 0 < W) {n : Nat} (hn : A.len ≤ n) :
    A.shiftRight n = ofBits W NW A.len fun _ => false := by
  rw [shiftRight_eq_ofBits hW hA]
  exact congrArg (ofBits W NW A.len) (funext fun j => hA.bit_eq_false (Nat.le_add_left_of_le hn))

theorem PadZero.shiftLeft_of_len_le (hA : A.PadZero) (hW : 0 < W) {n : Nat} (hn : A.len ≤ n) :
    A.shiftLeft n = ofBits W NW A.len fun _ => false := by
  rw [shiftLeft_eq_ofBits hW hA]
  refine ext_bit rfl fun j hj => ?_
  rw [bit_ofBits _ _ hj, bit_ofBits _ _ hj]
  by_cases hlen : j < A.len
  · simp [(hlen.trans_le hn).not_ge]
  · simp [hlen]

/-! ### Two shifts -/

theorem Inv.shiftRight_shiftRight (h : A.Inv) (hW : 0 < W) (m n : Nat) :
    (A.shiftRight m).shiftRight n = A.shiftRight (m + n) :=
  ext_bit rfl fun j _ => by
    rw [(h.shiftRight hW m).bit_shiftRight hW, h.bit_shiftRight hW, h.bit_shiftRight hW, Nat.add_assoc,
      Nat.add_comm n m]

/-- A bit that has moved up by `n` has moved up by `m + n` in all exactly when it had moved up by `m` before. -/
theorem Inv.shiftLeft_shiftLeft (h : A.Inv) (hW : 0 < W) (m n : Nat) :
    (A.shiftLeft m).shiftLeft n = A.shiftLeft (m + n) :=
  ext_bit rfl fun j _ => by
    rw [(h.shiftLeft hW m).bit_shiftLeft hW, h.bit_shiftLeft hW, h.bit_shiftLeft hW, len_shiftLeft,
      Nat.sub_sub, Nat.add_comm n m]
    by_cases hlen : j < A.len
    · have hmoved : m + n ≤ j ↔ n ≤ j ∧ m ≤ j - n := by omega
      simp [hlen, hmoved, (Nat.sub_le j n).trans_lt hlen, Bool.and_assoc]
    · simp [hlen]

/-- Up and down again: the bits within `n` of the end were discarded on the way up (R214). -/
theorem Inv.shiftRight_shiftLeft (h : A.Inv) (hW : 0 < W) (n : Nat) :
    (A.shiftLeft n).shiftRight n = ofBits W NW A.len fun j => decide (j + n < A.len) && A.bit j :=
  eq_ofBits rfl fun j _ => by
    rw [(h.shiftLeft hW n).bit_shiftRight hW, h.bit_shiftLeft hW, Nat.add_sub_cancel]
    by_cases hkept : j + n < A.len
    · simp [hkept, (Nat.le_add_right j n).trans_lt hkept]
    · simp [hkept]

/-- Down and up again: the bits below `n` were discarded on the way down (R214). -/
theorem Inv.shiftLeft_shiftRight (h : A.Inv) (hW : 0 < W) (n : Nat) :
    (A.shiftRight n).shiftLeft n = ofBits W NW A.len fun j => decide (n ≤ j) && A.bit j :=
  eq_ofBits rfl fun j _ => by
    rw [(h.shiftRight hW n).bit_shiftLeft hW, h.bit_shiftRight hW, len_shiftRight]
    by_cases hkept : n ≤ j
    · rw [Nat.sub_add_cancel hkept]
    · simp [hkept]

end MaskReg

/-! ## The commands -/

/-- `i` is the command of the shift `sh` by `OPND` (R210, R211). -/
def ComputesShift (i : RegField → RegField → Instr) (sh : ∀ W NW, MaskReg W NW → Nat → MaskReg W NW) : Prop :=
  ∀ d a s, exec (i d a) s = s.withRegs [d, a] (s.setReg d (sh _ _ (s.reg a) s.opnd)).ok

theorem computesShift_shr : ComputesShift .shr fun _ _ => MaskReg.shiftRight := fun _ _ _ => rfl

theorem computesShift_shl : ComputesShift .shl fun _ _ => MaskReg.shiftLeft := fun _ _ _ => rfl

namespace ComputesShift

variable {i : RegField → RegField → Instr} {sh : ∀ W NW, MaskReg W NW → Nat → MaskReg W NW}

theorem exec_legal (h : ComputesShift i sh) {s : State} {d a : RegField} (hd : d.toNat < s.cfg.nm)
    (ha : a.toNat < s.cfg.nm) : exec (i d a) s = .next (s.setReg d (sh _ _ (s.reg a) s.opnd)).ok :=
  (h d a s).trans (s.withRegs_legal (by simp [hd, ha]) _)

/-- A shift of `M[d]` in place, after a command that wrote `T` to it. -/
theorem exec_after_write (h : ComputesShift i sh) {s : State} {d : RegField} (hd : d.toNat < s.cfg.nm) (T : s.Reg) :
    exec (i d d) (s.setReg d T).ok = .next (s.setReg d (sh _ _ T s.opnd)).ok := by
  rw [h.exec_legal (s := (s.setReg d T).ok) hd hd, State.ok_reg, s.reg_setReg_same hd]
  exact congrArg Host.Outcome.next (s.setReg_ok_setReg d T _)

/-- The in-place command has one register field where the other form names the same register twice. -/
theorem exec_self (h : ComputesShift i sh) (d : RegField) (s : State) :
    exec (i d d) s = s.withRegs [d] (s.setReg d (sh _ _ (s.reg d) s.opnd)).ok := by
  rw [h d d s]
  simp [State.withRegs]

/-- Two commands whose shift adds amounts leave what one command leaves; a sum that does not fit `OPND` exceeds every
length, which fits (R214). -/
theorem exec_amounts_add (h : ComputesShift i sh) {s : State} {d a : RegField} (hd : d.toNat < s.cfg.nm)
    (ha : a.toNat < s.cfg.nm) (hbounded : (s.reg a).Bounded)
    (hadd : ∀ m n, sh _ _ (sh _ _ (s.reg a) m) n = sh _ _ (s.reg a) (m + n))
    (hzeros : ∀ n, (s.reg a).len ≤ n → sh _ _ (s.reg a) n = MaskReg.ofBits _ _ (s.reg a).len fun _ => false)
    (m n : BitVec 64) :
    ∃ T U : s.Reg,
      exec (i d a) (s.withOpnd m) = .next ((s.withOpnd m).setReg d U).ok ∧
      exec (i d d) ((s.withOpnd n).setReg d U).ok = .next ((s.withOpnd n).setReg d T).ok ∧
      (m.toNat + n.toNat < 2 ^ 64 →
        exec (i d a) (s.withOpnd (m + n)) = .next ((s.withOpnd (m + n)).setReg d T).ok) ∧
      (2 ^ 64 ≤ m.toNat + n.toNat → T = MaskReg.ofBits _ _ (s.reg a).len fun _ => false) := by
  refine ⟨sh _ _ (s.reg a) (m.toNat + n.toNat), sh _ _ (s.reg a) m.toNat,
    h.exec_legal (s := s.withOpnd m) hd ha, ?_, fun hfits => ?_, fun hover => hzeros _ ?_⟩
  · rw [← hadd]
    exact h.exec_after_write (s := s.withOpnd n) hd _
  · rw [← BitVec.toNat_add_of_lt hfits]
    exact h.exec_legal (s := s.withOpnd (m + n)) hd ha
  · have hcapacity := capacity_lt s.cfg
    have hlen := hbounded.len_le_capacity
    omega

end ComputesShift

theorem exec_shra_eq_exec_shr (d : RegField) (s : State) : exec (.shra d) s = exec (.shr d d) s :=
  (computesShift_shr.exec_self d s).symm

theorem exec_shla_eq_exec_shl (d : RegField) (s : State) : exec (.shla d) s = exec (.shl d d) s :=
  (computesShift_shl.exec_self d s).symm

/-! ## The statements -/

/-- Settles O48: the words by `getElem_shiftRight`, the bits by `shiftRight_eq_ofBits`. -/
theorem shrShiftsTowardLowIndices : Obligations.ShrShiftsTowardLowIndices := by
  intro d a s hd ha
  have hW := W_pos s.cfg
  refine ⟨packCmd_eq_cmdWord .., (s.reg a).shiftRight s.opnd, rfl, fun _ => MaskReg.getElem_shiftRight _ _,
    fun hpad => ⟨MaskReg.shiftRight_eq_ofBits hW hpad _, fun hzero => ?_, hpad.shiftRight_of_len_le hW⟩,
    computesShift_shr.exec_legal hd ha⟩
  rw [State.opnd, hzero]
  exact hpad.shiftRight_zero hW

/-- Settles O49: the words by `getElem_shiftLeft`, the bits by `shiftLeft_eq_ofBits`. -/
theorem shlShiftsTowardHighIndices : Obligations.ShlShiftsTowardHighIndices := by
  intro d a s hd ha
  have hW := W_pos s.cfg
  refine ⟨packCmd_eq_cmdWord .., (s.reg a).shiftLeft s.opnd, rfl, fun _ => MaskReg.getElem_shiftLeft hW _ _,
    fun hpad => ⟨MaskReg.shiftLeft_eq_ofBits hW hpad _, fun hzero => ?_, hpad.shiftLeft_of_len_le hW⟩,
    computesShift_shl.exec_legal hd ha⟩
  rw [State.opnd, hzero]
  exact hpad.shiftLeft_zero hW

/-- Settles O50: `exec_shra_eq_exec_shr` and `exec_shla_eq_exec_shl`, then the bits of the forms with a source. -/
theorem inPlaceShiftsEqualTheirSources : Obligations.InPlaceShiftsEqualTheirSources := by
  intro d s hd
  have hW := W_pos s.cfg
  exact ⟨packCmd_eq_cmdWord .., packCmd_eq_cmdWord .., exec_shra_eq_exec_shr d s, exec_shla_eq_exec_shl d s,
    fun hpad =>
    ⟨State.next_setReg_ok_congr ((exec_shra_eq_exec_shr d s).trans (computesShift_shr.exec_legal hd hd))
      (MaskReg.shiftRight_eq_ofBits hW hpad _),
    State.next_setReg_ok_congr ((exec_shla_eq_exec_shl d s).trans (computesShift_shl.exec_legal hd hd))
      (MaskReg.shiftLeft_eq_ofBits hW hpad _)⟩⟩

/-- Settles O51: the second command shifts what the first one wrote (`exec_after_write`). -/
theorem shiftThereAndBack : Obligations.ShiftThereAndBack := by
  intro d a s hd ha hinv
  have hW := W_pos s.cfg
  have hA : (s.reg a).Inv := hinv a ha
  exact ⟨⟨(s.reg a).shiftLeft s.opnd, computesShift_shl.exec_legal hd ha,
      State.next_setReg_ok_congr (computesShift_shr.exec_after_write hd _) (hA.shiftRight_shiftLeft hW _)⟩,
    ⟨(s.reg a).shiftRight s.opnd, computesShift_shr.exec_legal hd ha,
      State.next_setReg_ok_congr (computesShift_shl.exec_after_write hd _) (hA.shiftLeft_shiftRight hW _)⟩⟩

/-- Settles O52: in each direction the shift adds amounts, so the commands do (`exec_amounts_add`). -/
theorem shiftAmountsAdd : Obligations.ShiftAmountsAdd := by
  intro d a s m n hd ha hinv
  have hW := W_pos s.cfg
  have hA : (s.reg a).Inv := hinv a ha
  have ⟨hbounded, hpad⟩ := hA
  exact ⟨computesShift_shr.exec_amounts_add hd ha hbounded (hA.shiftRight_shiftRight hW)
      (fun _ => hpad.shiftRight_of_len_le hW) m n,
    computesShift_shl.exec_amounts_add hd ha hbounded (hA.shiftLeft_shiftLeft hW)
      (fun _ => hpad.shiftLeft_of_len_le hW) m n⟩

end Sys2Proof.Machine

/-! PROOFS of the statements of 46_equality.md: EQ. -/

namespace Sys2Proof.Machine

/-- What EQ puts into `RES` (R240): 1 exactly for two registers of one value (10_state.md R47). -/
theorem MaskReg.sameMask_result_eq_one_iff {W NW : Nat} (A B : MaskReg W NW) :
    (if A.sameMask B then 1#64 else 0#64) = 1#64 ↔ A.SameValue B := by
  rw [← A.sameMask_iff B]
  cases A.sameMask B with
  | true => exact iff_of_true rfl rfl
  | false => exact iff_of_false (by decide) (by decide)

/-- Settles O53: the comparison is value identity (`sameMask_result_eq_one_iff`), and under the padding rule value
identity is equality of the registers (`PadZero.sameValue_iff`). -/
theorem eqComparesLengthAndWords : Obligations.EqComparesLengthAndWords := by
  intro a b s ha hb
  have hone := (s.reg a).sameMask_result_eq_one_iff (s.reg b)
  refine ⟨packCmd_eq_cmdWord .., _, exec_eq ha hb, ite_eq_or_eq .., hone, fun hab => hone.mpr ?_, fun hinv => ?_⟩
  · exact hab ▸ ⟨rfl, fun _ _ => rfl⟩
  · obtain ⟨-, hpadA⟩ := hinv a ha
    obtain ⟨-, hpadB⟩ := hinv b hb
    exact hone.trans (hpadA.sameValue_iff hpadB)

end Sys2Proof.Machine

/-! PROOFS of the statements of 47_word_port.md: RDW, WRW and the round trip of a register through the port. -/

namespace Sys2Proof.Machine

/-! ## The words WRW writes (R251) -/

namespace MaskReg

variable {W NW : Nat} {X : MaskReg W NW}

theorem phys_storeWord (X : MaskReg W NW) (k : Nat) (data : Word W) {j : Nat} (hj : j < NW) :
    (X.storeWord k data).phys j =
      if j = k then (if j = X.len / W then data &&& tailmask W X.len else data) else X.phys j := by
  rw [storeWord, phys_setWord]
  by_cases hword : j = k
  · subst hword
    rw [if_pos ⟨rfl, hj⟩, if_pos rfl]
  · rw [if_neg fun h => hword h.1.symm, if_neg hword]

/-- `phys_storeWord` with the tail mask as a number. -/
theorem getElem_storeWord (hW : 0 < W) (X : MaskReg W NW) (k : Nat) (data : Word W) {j : Nat} (hj : j < NW) :
    (X.storeWord k data).w[j] =
      if j = k then (if j = X.len / W then data &&& BitVec.ofNat W (2 ^ (X.len % W) - 1) else data)
      else X.w[j] := by
  rw [← phys_of_lt _ hj, ← phys_of_lt _ hj, phys_storeWord X k data hj, tailmask_eq_ofNat hW]

/-! ## A register rebuilt from its words, one after the other (R252) -/

/-- The value of `X`'s length with the words of `X` below `n` and `ZERO` from there on: what ZEROS and the first `n`
WRW commands have written. -/
def firstWords (X : MaskReg W NW) (n : Nat) : MaskReg W NW :=
  build W NW X.len fun k => if k < n then X.phys k else 0#W

@[simp] theorem len_firstWords (X : MaskReg W NW) (n : Nat) : (X.firstWords n).len = X.len := rfl

theorem phys_firstWords (X : MaskReg W NW) (n : Nat) {k : Nat} (hk : k < NW) :
    (X.firstWords n).phys k = if k < n then X.phys k else 0#W := by
  rw [firstWords, phys_build, if_pos hk]

theorem firstWords_zero (X : MaskReg W NW) : X.firstWords 0 = zeros W NW X.len :=
  ext_phys rfl fun k hk => by rw [phys_firstWords X 0 hk, if_neg k.not_lt_zero, phys_zeros]

/-- The tail word of a value with zero padding is below its mask already. -/
theorem PadZero.phys_tail_and_tailmask (h : X.PadZero) (hW : 0 < W) :
    X.phys (X.len / W) &&& tailmask W X.len = X.phys (X.len / W) := by
  refine BitVec.eq_of_getLsbD_eq fun b hb => ?_
  rw [BitVec.getLsbD_and, getLsbD_tailmask hW, getLsbD_phys X _ hb]
  by_cases hlogical : b < X.len % W
  · rw [decide_eq_true hlogical, Bool.and_true]
  · have hpadding : X.len ≤ X.len / W * W + b := by
      have := Nat.div_add_mod' X.len W
      omega
    rw [h.bit_eq_false hpadding, Bool.false_and]

theorem PadZero.storeWord_firstWords (h : X.PadZero) (hW : 0 < W) (k : Nat) :
    (X.firstWords k).storeWord k (X.phys k) = X.firstWords (k + 1) := by
  refine ext_phys rfl fun j hj => ?_
  rw [phys_storeWord _ _ _ hj, phys_firstWords X k hj, phys_firstWords X (k + 1) hj, len_firstWords]
  rcases Nat.lt_trichotomy j k with hbelow | rfl | habove
  · rw [if_neg hbelow.ne, if_pos hbelow, if_pos (Nat.lt_succ_of_lt hbelow)]
  · rw [if_pos rfl, if_pos j.lt_succ_self]
    split
    · next htail => rw [htail, h.phys_tail_and_tailmask hW]
    · rfl
  · rw [if_neg habove.ne', if_neg habove.not_gt, if_neg (Nat.not_lt.mpr (Nat.succ_le_of_lt habove))]

/-- The allocated words are all there is: above them a value with zero padding is `ZERO`. -/
theorem PadZero.firstWords_nwords (h : X.PadZero) : X.firstWords (nwords W X.len) = X :=
  ext_phys rfl fun k hk => (phys_firstWords X _ hk).trans (h.word_eq_phys k)

end MaskReg

/-- The index of an allocated word fits `OPND`. -/
theorem toNat_ofNat_of_lt_nwords {p : Params} {X : MaskReg p.W p.nw} (h : X.Bounded) {k : Nat}
    (hk : k < nwords p.W X.len) : (BitVec.ofNat 64 k).toNat = k :=
  toNat_ofNat_of_le_capacity p
    ((hk.le.trans (h.nwords_le (capacity_pos p))).trans (Nat.le_mul_of_pos_right _ (W_pos p)))

/-! ## The commands, their register legal -/

section Commands

variable {s : State} {r : RegField} (hr : r.toNat < s.cfg.nm)
include hr

theorem exec_rdw_of_lt (hindex : s.opnd < nwords s.cfg.W (s.reg r).len) :
    exec (.rdw r) s = .next (s.setRwd ((s.reg r).phys s.opnd)).ok :=
  s.withRegs_of_check_passed (List.forall_mem_singleton.mpr hr) (Nat.not_le.mpr hindex) _ _

theorem exec_rdw_of_ge (hindex : nwords s.cfg.W (s.reg r).len ≤ s.opnd) :
    exec (.rdw r) s = .next (s.raise .indexOutOfBounds) :=
  s.withRegs_of_check_failed (List.forall_mem_singleton.mpr hr) hindex _ _

theorem exec_wrw_of_lt (hindex : s.opnd < nwords s.cfg.W (s.reg r).len) :
    exec (.wrw r) s = .next (s.setReg r ((s.reg r).storeWord s.opnd s.wdata)).ok :=
  s.withRegs_of_check_passed (List.forall_mem_singleton.mpr hr) (Nat.not_le.mpr hindex) _ _

theorem exec_wrw_of_ge (hindex : nwords s.cfg.W (s.reg r).len ≤ s.opnd) :
    exec (.wrw r) s = .next (s.raise .indexOutOfBounds) :=
  s.withRegs_of_check_failed (List.forall_mem_singleton.mpr hr) hindex _ _

/-- RDW with the index of an allocated word on the port. -/
theorem exec_rdw_withOpnd (hbounded : (s.reg r).Bounded) {k : Nat} (hk : k < nwords s.cfg.W (s.reg r).len) :
    exec (.rdw r) (s.withOpnd (BitVec.ofNat 64 k)) =
      .next ((s.withOpnd (BitVec.ofNat 64 k)).setRwd ((s.reg r).phys k)).ok := by
  have hopnd : (s.withOpnd (BitVec.ofNat 64 k)).opnd = k := toNat_ofNat_of_lt_nwords hbounded hk
  have hindex : (s.withOpnd (BitVec.ofNat 64 k)).opnd < nwords s.cfg.W (s.reg r).len := hopnd.trans_lt hk
  rw [exec_rdw_of_lt (s := s.withOpnd (BitVec.ofNat 64 k)) hr hindex, hopnd]
  rfl

/-- WRW after a command that wrote `T` to the register changes a word of `T`. -/
theorem exec_wrw_after_write {T : s.Reg} (hindex : s.opnd < nwords s.cfg.W T.len) :
    exec (.wrw r) (s.setReg r T).ok = .next (s.setReg r (T.storeWord s.opnd s.wdata)).ok := by
  have hreg : (s.setReg r T).ok.reg r = T := s.reg_setReg_same hr T
  rw [exec_wrw_of_lt (s := (s.setReg r T).ok) hr (hreg.symm ▸ hindex), hreg]
  exact congrArg Host.Outcome.next (s.setReg_ok_setReg r T _)

end Commands

/-! ## The program that writes a register back (R252) -/

/-- A run along states of which each steps to the next. -/
theorem run_of_steps {n : Nat} {f : Nat → State} (h : ∀ k < n, step (f k) = .next (f (k + 1))) :
    Sys2Proof.core.run n (f 0) = .next (f n) := by
  induction n generalizing f with
  | zero => rfl
  | succ n ih =>
    rw [run_succ_of_next n (f 0) (f 1) (h 0 n.succ_pos)]
    exact ih (f := fun k => f (k + 1)) fun k hk => h (k + 1) (Nat.succ_lt_succ hk)

section Restore

variable {W NW : Nat}

/-- The statements of the program that writes `X` to `M[d]`: ZEROS with its length, then WRW with each word. -/
def restoreStmt (d : RegField) (X : MaskReg W NW) : Nat → Stmt W
  | 0 => .zeros d (BitVec.ofNat 64 X.len)
  | k + 1 => .wrw d (BitVec.ofNat 64 k) (X.phys k)

/-- The host's list that issues the statements of `restoreStmt`, one WRW for every allocated word. -/
def restoreProgram (d : RegField) (X : MaskReg W NW) : List (HostEvent W) :=
  .issue (assemble (restoreStmt d X 0)) ::
    (List.range (nwords W X.len)).map fun k => .issue (assemble (restoreStmt d X (k + 1)))

theorem restoreProgram_getElem? (d : RegField) (X : MaskReg W NW) {i : Nat} (hi : i ≤ nwords W X.len) :
    (restoreProgram d X)[i]? = some (.issue (assemble (restoreStmt d X i))) := by
  cases i with
  | zero => rfl
  | succ k => rw [restoreProgram, List.getElem?_cons_succ, List.getElem?_map, List.getElem?_range hi, Option.map_some]

end Restore

namespace State

variable {s : State} {d : RegField} {X : s.Reg}

/-- `s` with statement `k` of the program that writes `X` to `M[d]` on its ports. -/
def restoring (s : State) (d : RegField) (X : s.Reg) (k : Nat) : State :=
  { s with port := assemble (restoreStmt d X k), script := restoreProgram d X, pos := k + 1 }

/-- `s` when that program has zeroed `M[d]` and written its first `k` words. -/
def restored (s : State) (d : RegField) (X : s.Reg) (k : Nat) : State :=
  ((s.restoring d X k).setReg d (X.firstWords k)).ok

theorem step_restore_zeros (hd : d.toNat < s.cfg.nm) (hX : X.Bounded) :
    step { s with script := restoreProgram d X, pos := 0 } = .next (s.restored d X 0) := by
  obtain ⟨-, hstep⟩ := stepRunsDecodedCommand { s with script := restoreProgram d X, pos := 0 }
    (assemble (restoreStmt d X 0)) (.zeros d) (restoreProgram_getElem? d X (Nat.zero_le _))
    (decodeOfEncode s.cfg.nm (.zeros d) (List.forall_mem_singleton.mpr hd))
  have hopnd : (s.restoring d X 0).opnd = X.len := toNat_ofNat_of_le_capacity s.cfg hX.len_le_capacity
  refine next_setReg_ok_congr (hstep.trans (exec_zeros_of_le (s := s.restoring d X 0) hd (hopnd.trans_le hX))) ?_
  rw [hopnd]
  exact X.firstWords_zero.symm

theorem step_restored (hd : d.toNat < s.cfg.nm) (hX : X.Inv) {k : Nat} (hk : k < nwords s.cfg.W X.len) :
    step (s.restored d X k) = .next (s.restored d X (k + 1)) := by
  obtain ⟨hbounded, hpad⟩ := hX
  obtain ⟨-, hstep⟩ := stepRunsDecodedCommand (s.restored d X k) (assemble (restoreStmt d X (k + 1))) (.wrw d)
    (restoreProgram_getElem? d X hk) (decodeOfEncode s.cfg.nm (.wrw d) (List.forall_mem_singleton.mpr hd))
  have hopnd : (s.restoring d X (k + 1)).opnd = k := toNat_ofNat_of_lt_nwords hbounded hk
  have hwrw := exec_wrw_after_write (s := s.restoring d X (k + 1)) hd (T := X.firstWords k) (hopnd.trans_lt hk)
  refine next_setReg_ok_congr (hstep.trans hwrw) ?_
  rw [hopnd]
  exact hpad.storeWord_firstWords (W_pos s.cfg) k

theorem run_restoreProgram (hd : d.toNat < s.cfg.nm) (hX : X.Inv) :
    Sys2Proof.core.run (nwords s.cfg.W X.len + 1) { s with script := restoreProgram d X, pos := 0 } =
      .next (s.restored d X (nwords s.cfg.W X.len)) :=
  (run_succ_of_next _ _ _ (step_restore_zeros hd hX.1)).trans (run_of_steps fun _ => step_restored hd hX)

end State

/-! ## The statements -/

/-- Settles O54: the check against `nwords` splits the two outcomes; an allocated word is a physical one
(`Bounded.nwords_le`), and its bits at or above `len` are padding. -/
theorem rdwReadsAllocatedWord : Obligations.RdwReadsAllocatedWord := by
  rintro a s ha ⟨hbounded, hpad⟩
  refine ⟨packCmd_eq_cmdWord .., fun hindex => ?_, exec_rdw_of_ge ha⟩
  have hk : s.opnd < s.cfg.nw := hindex.trans_le (hbounded.nwords_le (capacity_pos s.cfg))
  have hword : (s.reg a).w[s.opnd] = (s.reg a).phys s.opnd := ((s.reg a).phys_of_lt hk).symm
  refine ⟨hk, (exec_rdw_of_lt ha hindex).trans (by rw [← hword]; rfl), fun b hb hlen => ?_⟩
  exact (congrArg (·.getLsbD b) hword).trans (((s.reg a).getLsbD_phys _ hb).trans (hpad.bit_eq_false hlen))

/-- Settles O55: the words by `getElem_storeWord`, the padding by `storeWord_padZero`. -/
theorem wrwWritesAllocatedWord : Obligations.WrwWritesAllocatedWord := by
  intro d s hd hbounded
  have hW := W_pos s.cfg
  refine ⟨packCmd_eq_cmdWord .., fun hindex => ⟨hindex.trans_le (hbounded.nwords_le (capacity_pos s.cfg)), ?_⟩,
    exec_wrw_of_ge hd⟩
  exact ⟨(s.reg d).storeWord s.opnd s.wdata, rfl, fun k => MaskReg.getElem_storeWord hW _ _ _,
    fun hpad => MaskReg.storeWord_padZero hW hpad hindex _, exec_wrw_of_lt hd hindex⟩

/-- Settles O56: the run by `run_restoreProgram`; with every allocated word written, `M[d]` is the value read out
(`firstWords_nwords`). -/
theorem wordPortRoundTrip : Obligations.WordPortRoundTrip := by
  intro a d s ha hd hinv
  have hA : (s.reg a).Inv := hinv a ha
  have ⟨hbounded, hpad⟩ := hA
  refine ⟨exec_len ha, fun k hk => exec_rdw_withOpnd ha hbounded hk, fun prog hprog =>
    ⟨assemble (restoreStmt d (s.reg a) (nwords s.cfg.W (s.reg a).len)), ?_⟩⟩
  obtain rfl : prog = restoreProgram d (s.reg a) := by
    rw [hprog, restoreProgram]
    simp only [restoreStmt, assemble, encode, packCmd_eq_cmdWord]
    rfl
  exact State.next_setReg_ok_congr (State.run_restoreProgram hd hA) hpad.firstWords_nwords

end Sys2Proof.Machine

/-! PROOFS of the statements of 60_exceptions.md: an illegal word, the safety of every command, the frame of an error,
the cause of each status code, and the idle step. -/

namespace Sys2Proof.Machine

/-! ## An illegal word (R273) -/

theorem runCommand_of_illegalWord {s : State} (h : IllegalWord s.cfg.nm s.port.cmd) :
    runCommand s = .next (s.raise .illegalCommand) := by
  rcases runCommand_cases s with ⟨i, hi, -⟩ | ⟨e, -, hrun⟩
  · exact absurd h ((exists_decode_iff _ _).mp ⟨i, hi⟩)
  · exact hrun

/-! ## The cause of a status code (R271) -/

theorem Code.bits_injective : Function.Injective Code.bits := by
  have hinv : Function.LeftInverse (fun b => Code.ofNat b.toNat) Code.bits := fun c => by cases c <;> rfl
  exact hinv.injective

/-- The error code of a command's own operand check (R272, R274), `OK` where the check passes or there is none. -/
def State.operandCheck (s : State) : Instr → Code
  | .set r _ | .get r => if (s.reg r).len ≤ s.opnd then .indexOutOfBounds else .ok
  | .rdw r | .wrw r => if nwords s.cfg.W (s.reg r).len ≤ s.opnd then .indexOutOfBounds else .ok
  | .zeros _ | .ones _ => if s.cfg.lmax < s.opnd then .capacityExceeded else .ok
  | _ => .ok

namespace State

variable (s : State)

/-- A command whose register fields are legal leaves the `STATUS` of its own effect. -/
theorem status_of_withRegs {rs : List RegField} (hrs : ∀ r ∈ rs, r.toNat < s.cfg.nm) {t u : State}
    (h : s.withRegs rs t = .next u) : u.status = t.status := by
  rw [s.withRegs_legal hrs] at h
  cases h
  rfl

theorem status_of_check {p : Prop} [Decidable p] (c : Code) (t : State) :
    (if p then s.raise c else t.ok).status = (if p then c else .ok : Code).bits := by
  split <;> rfl

end State

/-- A command whose register fields are legal leaves in `STATUS` the code of its operand check. -/
theorem exec_status {i : Instr} {s t : State} (hwf : i.WellFormed s.cfg.nm) (h : exec i s = .next t) :
    t.status = (s.operandCheck i).bits := by
  cases i with
  | set _ _ | get _ | rdw _ | wrw _ | zeros _ | ones _ =>
    exact (s.status_of_withRegs hwf h).trans (s.status_of_check _ _)
  | setall _ _ | mov _ _ | len _ | nwd _ | cnt _ | tzc _ | eq _ _ | and _ _ _ | or _ _ _ | xor _ _ _ | not _ _
  | anda _ _ | ora _ _ | xora _ _ | shr _ _ | shl _ _ | shra _ | shla _ => exact s.status_of_withRegs hwf h
  | cfg => exact s.status_of_withRegs (rs := []) hwf h

namespace State

variable (s : State) (i : Instr)

/-- An operand check finds an index out of range or a size above `L_MAX`, never an illegal command. -/
theorem operandCheck_bits_le : (s.operandCheck i).bits.toNat ≤ 2 := by
  cases i with
  | set _ _ | get _ | rdw _ | wrw _ | zeros _ | ones _ =>
    dsimp only [operandCheck]
    split <;> decide
  | _ => exact Nat.zero_le 2

theorem operandCheck_eq_indexOutOfBounds_iff :
    s.operandCheck i = .indexOutOfBounds ↔
      (∃ d v, i = .set d v ∧ (s.reg d).len ≤ s.opnd) ∨ (∃ a, i = .get a ∧ (s.reg a).len ≤ s.opnd) ∨
      (∃ a, i = .rdw a ∧ nwords s.cfg.W (s.reg a).len ≤ s.opnd) ∨
      (∃ d, i = .wrw d ∧ nwords s.cfg.W (s.reg d).len ≤ s.opnd) := by
  cases i <;> simp [operandCheck, ite_eq_iff]

theorem operandCheck_eq_capacityExceeded_iff :
    s.operandCheck i = .capacityExceeded ↔ ∃ d, (i = .zeros d ∨ i = .ones d) ∧ s.cfg.lmax < s.opnd := by
  cases i <;> simp [operandCheck, ite_eq_iff]

end State

/-- What a command word leaves in `STATUS`: the code of the command's operand check, or ILLEGAL_COMMAND. -/
theorem runCommand_status {s s' : State} (h : runCommand s = .next s') :
    (∃ i, s.decoded = .ok i ∧ ¬IllegalWord s.cfg.nm s.port.cmd ∧ s'.status = (s.operandCheck i).bits) ∨
    ((∀ i, s.decoded ≠ .ok i) ∧ IllegalWord s.cfg.nm s.port.cmd ∧ s'.status = Code.illegalCommand.bits) := by
  rcases runCommand_cases s with ⟨i, hi, hrun⟩ | ⟨e, he, hrun⟩
  · obtain ⟨-, -, hwf⟩ := (decode_eq_ok_iff _ _ _).mp hi
    exact .inl ⟨i, hi, (exists_decode_iff _ _).mp ⟨i, hi⟩, exec_status hwf (hrun.symm.trans h)⟩
  · have hreject : ∀ i, s.decoded ≠ .ok i := fun i hi => by cases he.symm.trans hi
    have hillegal := (decoderRejectsExactlyIllegalWords _ _).1.mp ⟨e, he⟩
    obtain rfl := Host.Outcome.next.inj (hrun.symm.trans h)
    exact .inr ⟨hreject, hillegal, rfl⟩

/-! ## The statements -/

/-- Settles O5: the step runs the command on the ports (`step_issue`), whose word the decoder rejects. -/
theorem illegalWordOnlySetsStatus : Obligations.IllegalWordOnlySetsStatus := fun s t ht hillegal =>
  (step_issue ht).trans (runCommand_of_illegalWord (s := s.accept t) hillegal)

/-- Settles O11: the one register a command may write gets a value that keeps the invariant (`State.Inv.exec_safe`). -/
theorem everyCommandIsSafe : Obligations.EveryCommandIsSafe := fun i _ hinv => hinv.exec_safe i

/-- Settles O12: of the four ways a command ends (`exec_cases`), three leave `STATUS = OK`. -/
theorem errorWritesOnlyStatus : Obligations.ErrorWritesOnlyStatus := by
  intro s s' hrun herr
  rcases runCommand_cases s with ⟨i, -, hexec⟩ | ⟨e, -, hraise⟩
  · have hends := exec_cases i s
    rw [← hexec, hrun] at hends
    cases hends with
    | error c _ => rfl
    | reg d T _ _ _ | res v _ | rwd x _ => exact absurd rfl herr
  · obtain rfl := Host.Outcome.next.inj (hraise.symm.trans hrun)
    rfl

/-- Settles O13: `STATUS` is the code of the operand check of a legal word, and 3 for an illegal one
(`runCommand_status`). -/
theorem statusCodeNamesItsCause : Obligations.StatusCodeNamesItsCause := by
  intro s s' hrun
  rcases runCommand_status hrun with ⟨i, hi, hlegal, hstatus⟩ | ⟨hreject, hillegal, hstatus⟩
  · have hdecoded : ∀ j, decode s.cfg.nm s.port.cmd = .ok j ↔ i = j := fun j =>
      ⟨fun hj => Except.ok.inj (hi.symm.trans hj), fun hj => hj ▸ hi⟩
    have hle := s.operandCheck_bits_le i
    simp only [hdecoded, hstatus]
    refine ⟨Code.bits_injective.eq_iff.trans (s.operandCheck_eq_indexOutOfBounds_iff i),
      Code.bits_injective.eq_iff.trans (s.operandCheck_eq_capacityExceeded_iff i),
      iff_of_false (fun h3 => ?_) hlegal, hle.trans (by decide)⟩
    rw [h3] at hle
    exact absurd hle (by decide)
  · have hnone : ∀ j, decode s.cfg.nm s.port.cmd ≠ .ok j := hreject
    simp [hnone, hstatus, hillegal, Code.bits]

/-- Settles O6, by the first of the things a step can be. -/
theorem idleStepHoldsState : Obligations.IdleStepHoldsState := by
  intro s hend
  unfold step State.nextEvent
  rw [hend]

end Sys2Proof.Machine

/-! PROOFS of the statements of 70_reset_and_hazards.md: the reset event, the first command after reset, and the one
step that is refused. -/

namespace Sys2Proof.Machine

/-! ## The reset event and the overlap (R300, R313) -/

/-- A reset event, while idle or during a command, applies the reset: the abandoned command has no part in it. -/
theorem step_reset {s : State} {ev : HostEvent s.cfg.W} (hev : s.nextEvent = some ev)
    (hreset : ev = .reset ∨ ∃ t, ev = .resetDuring t) : step s = .next s.applyReset := by
  unfold step
  rw [hev]
  rcases hreset with rfl | ⟨t, rfl⟩ <;> rfl

theorem step_overlap {s : State} {t u : Transaction s.cfg.W} (h : s.nextEvent = some (.overlap t u)) :
    step s = .refused .overlappingIssue := by
  unfold step
  rw [h]

/-! ## The state after reset (R302) -/

theorem State.resetOf_inv (cfg : Params) : (State.resetOf cfg).Inv := fun r _ => by
  rw [State.resetOf_reg]
  exact MaskReg.empty_inv

/-- A step that issues a command from a state with the invariant is defined and keeps it. -/
theorem State.Inv.step_issue_safe {s : State} (hinv : s.Inv) {t : Transaction s.cfg.W}
    (ht : s.script[s.pos]? = some (.issue t)) : SafeOutcome (step s) := by
  have haccept : (s.accept t).Inv := hinv
  rw [step_issue ht]
  exact haccept.runCommand_safe

/-! ## The statements -/

/-- Settles O3: both reset events apply the reset (`step_reset`), which gives every register and result its reset
value. -/
theorem resetEventClearsAllState : Obligations.ResetEventClearsAllState := by
  intro s ev hev hreset
  refine ⟨Vector.replicate s.cfg.nm (MaskReg.empty s.cfg.W s.cfg.nw), s.port, s.pos + 1, fun k hk => ?_,
    step_reset hev hreset⟩
  rw [Vector.getElem_replicate]
  exact ⟨rfl, fun j hj => Vector.getElem_replicate hj⟩

/-- Settles O2: the reset state has the invariant, and a command issued from a state that has it is safe
(`State.Inv.step_issue_safe`). -/
theorem resetSatisfiesInvariant : Obligations.ResetSatisfiesInvariant := by
  intro cfg
  have hready (t : Transaction cfg.W) : ((State.resetOf cfg).withTransaction t).Inv := State.resetOf_inv cfg
  exact ⟨State.resetOf_inv cfg, fun t => (hready t).step_issue_safe (t := t) rfl⟩

/-- Settles O7: of the things a step can be (`step_cases`) only the overlap is refused, and a command always answers
a next state (`runCommand_next`). -/
theorem onlyOverlappingIssueIsRefused : Obligations.OnlyOverlappingIssueIsRefused := by
  refine fun s => ⟨fun ⟨t, u, h⟩ => step_overlap h, fun hno => ?_⟩
  rcases step_cases s with ⟨-, hidle⟩ | ⟨t, -, hrun⟩ | ⟨-, hreset⟩ | ⟨t, u, hoverlap, -⟩
  · exact ⟨s, hidle⟩
  · rw [hrun]
    exact runCommand_next _
  · exact ⟨s.applyReset, hreset⟩
  · exact absurd ⟨t, u, hoverlap⟩ hno

end Sys2Proof.Machine
